-- ==== Sys2Proof/Config.lean ====
section
/-! DEFINITION. The implementation parameters of this hardware (R8 and the table of spec/00_scope.md,
section 3): each is fixed, and nothing changes one at run time. The parameter FONT (R9) stands in
Machine/Font.lean. The spec leaves no value open to an implementation, so there is no free value here. -/

namespace Sys2Proof.Config

/-- `MEM_SIZE`: bytes of memory, addresses 0x000 to 0xFFF. -/
abbrev memSize : Nat := 4096

/-- `ADDR_MAX`: the highest memory address. -/
abbrev addrMax : Nat := 0xFFF

/-- `BASE`: the program load address and the `pc` after reset. -/
abbrev base : Nat := 0x200

/-- `FONT_LEN`: the font lies in bytes 0x000 (`FONT_BASE`) to 0x04F. -/
abbrev fontLen : Nat := 80

/-- `STACK_DEPTH` times `SP_STEP`: the value of `sp` when all 16 entries are in use (R27). -/
abbrev spFull : Nat := 32

/-- `SP_STEP`: what a push adds to `sp` and a pop subtracts from it. -/
abbrev spStep : Nat := 2

/-- `INSN_BYTES`: the width of every instruction, in bytes (R66). -/
abbrev insnBytes : Nat := 2

/-- `SCREEN_W`: columns of the display, bits of a scanline. -/
abbrev screenW : Nat := 64

/-- `SCREEN_H`: scanlines of the display. -/
abbrev screenH : Nat := 32

/-- `MAX_IMAGE`: the largest program image, 4096 - 0x200 bytes (R150). -/
abbrev maxImage : Nat := 3584

end Sys2Proof.Config
end

