-- ==== Sys2Proof/Word.lean ====
section
/-! DEFINITION. The widths of the CHIP-8 core's values (spec/00_scope.md, section 3; R10, R11): all values
are unsigned bit vectors, and a register number or a sprite height is an index, not a word. -/

namespace Sys2Proof

/-- A byte: general registers, memory bytes and the `kk` operand (R18, R29, R57). -/
abbrev Byte := BitVec 8

/-- A 16-bit word: an instruction, `I`, `pc`, `sp` and a return address (R22, R23, R26, R27, R54). -/
abbrev Word := BitVec 16

/-- The 12-bit address operand `nnn` (R55). -/
abbrev Addr := BitVec 12

/-- One row of the framebuffer; bit `c` is the pixel at column `c` (R32). -/
abbrev Scanline := BitVec 64

/-- The number of a general register, V0 to VF (R18: every index 0 to 15 is encodable). -/
abbrev Reg := Fin 16

/-- VF, the flag register (R19). -/
abbrev Reg.vf : Reg := 15

/-- V0, the register BNNN adds (R86). -/
abbrev Reg.v0 : Reg := 0

end Sys2Proof
end

