-- ==== Sys2Proof/Syntax.lean ====
section
/-! DEFINITION. The 35 instructions of the CHIP-8 core, one constructor per row of spec/opcode_table.json
(spec/30_encoding.md, R63), in the table's order. A bit the spec says is not examined (the low nibble of
5XYN and 9XYN, R58; the `y` field of 8XY6 and 8XYE, R102 and R104) is no operand and has no field here. -/

namespace Sys2Proof

/-- One decoded instruction; the field names are those of R55. -/
inductive Instr where
  /-- 00E0, clear the display (R106). -/
  | cls
  /-- 00EE, return from a subroutine (R88). -/
  | ret
  /-- 0NNN other than 00E0 and 00EE (R116, Unimplemented). -/
  | sys (nnn : Addr)
  /-- 1NNN, jump (R85). -/
  | jp (nnn : Addr)
  /-- 2NNN, call (R87). -/
  | call (nnn : Addr)
  /-- 3XKK, skip if `V[x] = kk` (R89). -/
  | seImm (x : Reg) (kk : Byte)
  /-- 4XKK, skip if `V[x] ≠ kk` (R90). -/
  | sneImm (x : Reg) (kk : Byte)
  /-- 5XYN, skip if `V[x] = V[y]` (R91). -/
  | seReg (x y : Reg)
  /-- 6XKK, load immediate (R94). -/
  | ldImm (x : Reg) (kk : Byte)
  /-- 7XKK, add immediate, no flag (R95). -/
  | addImm (x : Reg) (kk : Byte)
  /-- 8XY0, copy (R96). -/
  | ldReg (x y : Reg)
  /-- 8XY1, bitwise OR (R97). -/
  | or (x y : Reg)
  /-- 8XY2, bitwise AND (R98). -/
  | and (x y : Reg)
  /-- 8XY3, bitwise exclusive OR (R99). -/
  | xor (x y : Reg)
  /-- 8XY4, add with carry into VF (R100). -/
  | addReg (x y : Reg)
  /-- 8XY5, subtract with not-borrow into VF (R101). -/
  | sub (x y : Reg)
  /-- 8XY6, shift right, bit 0 into VF (R102). -/
  | shr (x : Reg)
  /-- 8XY7, reverse subtract with not-borrow into VF (R103). -/
  | subn (x y : Reg)
  /-- 8XYE, shift left, bit 7 into VF (R104). -/
  | shl (x : Reg)
  /-- 9XYN, skip if `V[x] ≠ V[y]` (R92). -/
  | sneReg (x y : Reg)
  /-- ANNN, load the index register (R105). -/
  | ldI (nnn : Addr)
  /-- BNNN, jump to `nnn + V[0]` (R86). -/
  | jpV0 (nnn : Addr)
  /-- CXKK (R117, Unimplemented). -/
  | rnd (x : Reg) (kk : Byte)
  /-- DXYN, draw a sprite of `n` rows (R107 to R115); `n` is a count, 0 to 15 (R57). -/
  | drw (x y : Reg) (n : Fin 16)
  /-- EX9E (R118, Unimplemented). -/
  | skp (x : Reg)
  /-- EXA1 (R119, Unimplemented). -/
  | sknp (x : Reg)
  /-- FX07 (R120, Unimplemented). -/
  | ldVxDt (x : Reg)
  /-- FX0A (R121, Unimplemented). -/
  | ldVxK (x : Reg)
  /-- FX15 (R122, Unimplemented). -/
  | ldDtVx (x : Reg)
  /-- FX18 (R123, Unimplemented). -/
  | ldStVx (x : Reg)
  /-- FX1E (R124, Unimplemented). -/
  | addIVx (x : Reg)
  /-- FX29 (R125, Unimplemented). -/
  | ldFVx (x : Reg)
  /-- FX33 (R126, Unimplemented). -/
  | ldBVx (x : Reg)
  /-- FX55 (R127, Unimplemented). -/
  | storeRegs (x : Reg)
  /-- FX65 (R128, Unimplemented). -/
  | loadRegs (x : Reg)
  deriving DecidableEq, Repr

end Sys2Proof
end

