-- ==== Sys2Proof/WellFormed.lean ====
section
/-! DEFINITION. Which terms of `Instr` an instruction word can stand for. Every operand is bounded by its
type, so one check is left: the two class-0 words 00E0 and 00EE are CLS and RET, never SYS (R59). -/

namespace Sys2Proof

/-- `i` is the decoding of some word. -/
def Instr.wellFormed (i : Instr) : Bool :=
  match i with
  | .sys nnn => nnn != 0x0E0#12 && nnn != 0x0EE#12
  | _ => true

end Sys2Proof
end

