-- ==== Sys2Proof/Decode.lean ====
section
/-! DEFINITION. The decoder and dispatch table (spec/30_encoding.md): the field record of a word (R55), the
nested lookup that selects an instruction (R58 to R62), the opcode map of R63 as a table of rows, and the
encoder. Decoding is total and rejects by name. -/

namespace Sys2Proof

/-- The Decoder's field record (R55). It is cut from every word and cannot fail (R56). -/
structure Fields where
  cls : BitVec 4
  x   : Reg
  y   : Reg
  n   : Fin 16
  nnn : Addr
  kk  : Byte
  deriving DecidableEq, Repr

/-- Why bytes are no instruction: too few of them, or a word that selects no row (R64). -/
inductive DecodeError where
  | truncated
  | invalidInstruction
  deriving DecidableEq, Repr

/-- The Decoder: a pure total function of the word (R55, R56). -/
def fieldsOf (w : Word) : Fields where
  cls := w.extractLsb' 12 4
  x   := (w.extractLsb' 8 4).toFin
  y   := (w.extractLsb' 4 4).toFin
  n   := (w.extractLsb' 0 4).toFin
  nnn := w.extractLsb' 0 12
  kk  := w.extractLsb' 0 8

/-- Class 0x0 selects by the whole word (R59). -/
def selectClass0 (w : Word) (f : Fields) : Except DecodeError Instr :=
  if w = 0x00E0#16 then .ok .cls
  else if w = 0x00EE#16 then .ok .ret
  else .ok (.sys f.nnn)

/-- Class 0x8 selects by the low nibble `n` (R60). -/
def selectClass8 (f : Fields) : Except DecodeError Instr :=
  match f.n with
  | 0x0 => .ok (.ldReg f.x f.y)
  | 0x1 => .ok (.or f.x f.y)
  | 0x2 => .ok (.and f.x f.y)
  | 0x3 => .ok (.xor f.x f.y)
  | 0x4 => .ok (.addReg f.x f.y)
  | 0x5 => .ok (.sub f.x f.y)
  | 0x6 => .ok (.shr f.x)
  | 0x7 => .ok (.subn f.x f.y)
  | 0xE => .ok (.shl f.x)
  | _   => .error .invalidInstruction

/-- Class 0xE selects by the low byte `kk` (R61). -/
def selectClassE (f : Fields) : Except DecodeError Instr :=
  if f.kk = 0x9E#8 then .ok (.skp f.x)
  else if f.kk = 0xA1#8 then .ok (.sknp f.x)
  else .error .invalidInstruction

/-- Class 0xF selects by the low byte `kk` (R62). -/
def selectClassF (f : Fields) : Except DecodeError Instr :=
  if f.kk = 0x07#8 then .ok (.ldVxDt f.x)
  else if f.kk = 0x0A#8 then .ok (.ldVxK f.x)
  else if f.kk = 0x15#8 then .ok (.ldDtVx f.x)
  else if f.kk = 0x18#8 then .ok (.ldStVx f.x)
  else if f.kk = 0x1E#8 then .ok (.addIVx f.x)
  else if f.kk = 0x29#8 then .ok (.ldFVx f.x)
  else if f.kk = 0x33#8 then .ok (.ldBVx f.x)
  else if f.kk = 0x55#8 then .ok (.storeRegs f.x)
  else if f.kk = 0x65#8 then .ok (.loadRegs f.x)
  else .error .invalidInstruction

/-- The dispatch multiplexer (R75): classes 0x1 to 0x7 and 0x9 to 0xD select by the class alone (R58), the
others by a nested lookup. -/
def decode (w : Word) : Except DecodeError Instr :=
  let f := fieldsOf w
  match f.cls with
  | 0x0#4 => selectClass0 w f
  | 0x1#4 => .ok (.jp f.nnn)
  | 0x2#4 => .ok (.call f.nnn)
  | 0x3#4 => .ok (.seImm f.x f.kk)
  | 0x4#4 => .ok (.sneImm f.x f.kk)
  | 0x5#4 => .ok (.seReg f.x f.y)
  | 0x6#4 => .ok (.ldImm f.x f.kk)
  | 0x7#4 => .ok (.addImm f.x f.kk)
  | 0x8#4 => selectClass8 f
  | 0x9#4 => .ok (.sneReg f.x f.y)
  | 0xA#4 => .ok (.ldI f.nnn)
  | 0xB#4 => .ok (.jpV0 f.nnn)
  | 0xC#4 => .ok (.rnd f.x f.kk)
  | 0xD#4 => .ok (.drw f.x f.y f.n)
  | 0xE#4 => selectClassE f
  | _ => selectClassF f  -- 0xF, the one class left

/-- Two bytes as the fetch combines them: big-endian, the first byte in bits 15 to 8 (R41). -/
def wordOfBytes (hi lo : Byte) : Word := hi ++ lo

/-- The two bytes of a word in memory order (R41). -/
def bytesOfWord (w : Word) : List Byte := [w.extractLsb' 8 8, w.extractLsb' 0 8]

/-- Decodes the first instruction of a byte sequence and gives the bytes after it: an instruction is
always two bytes (R66). -/
def decodeBytes (bs : List Byte) : Except DecodeError (Instr × List Byte) :=
  match bs with
  | hi :: lo :: rest => (decode (wordOfBytes hi lo)).map (fun i => (i, rest))
  | _ => .error .truncated

/-- A word of the four nibbles `c`, `x`, `y`, `n` (R55). -/
def wordXYN (c : BitVec 4) (x y : Reg) (n : Fin 16) : Word :=
  c ++ BitVec.ofFin (w := 4) x ++ BitVec.ofFin (w := 4) y ++ BitVec.ofFin (w := 4) n

/-- A word of the class `c`, the register `x` and the low byte `kk` (R55). -/
def wordXKK (c : BitVec 4) (x : Reg) (kk : Byte) : Word :=
  c ++ BitVec.ofFin (w := 4) x ++ kk

/-- A word of the class `c` and the address operand `nnn` (R55). -/
def wordNNN (c : BitVec 4) (nnn : Addr) : Word := c ++ nnn

/-- The encoder: the word of an instruction by the patterns of R63. A field that is no operand is written 0,
as the assembler of R68 writes it. -/
def encode (i : Instr) : Word :=
  match i with
  | .cls          => 0x00E0#16
  | .ret          => 0x00EE#16
  | .sys nnn      => wordNNN 0x0 nnn
  | .jp nnn       => wordNNN 0x1 nnn
  | .call nnn     => wordNNN 0x2 nnn
  | .seImm x kk   => wordXKK 0x3 x kk
  | .sneImm x kk  => wordXKK 0x4 x kk
  | .seReg x y    => wordXYN 0x5 x y 0x0
  | .ldImm x kk   => wordXKK 0x6 x kk
  | .addImm x kk  => wordXKK 0x7 x kk
  | .ldReg x y    => wordXYN 0x8 x y 0x0
  | .or x y       => wordXYN 0x8 x y 0x1
  | .and x y      => wordXYN 0x8 x y 0x2
  | .xor x y      => wordXYN 0x8 x y 0x3
  | .addReg x y   => wordXYN 0x8 x y 0x4
  | .sub x y      => wordXYN 0x8 x y 0x5
  | .shr x        => wordXYN 0x8 x 0x0 0x6
  | .subn x y     => wordXYN 0x8 x y 0x7
  | .shl x        => wordXYN 0x8 x 0x0 0xE
  | .sneReg x y   => wordXYN 0x9 x y 0x0
  | .ldI nnn      => wordNNN 0xA nnn
  | .jpV0 nnn     => wordNNN 0xB nnn
  | .rnd x kk     => wordXKK 0xC x kk
  | .drw x y n    => wordXYN 0xD x y n
  | .skp x        => wordXKK 0xE x 0x9E
  | .sknp x       => wordXKK 0xE x 0xA1
  | .ldVxDt x     => wordXKK 0xF x 0x07
  | .ldVxK x      => wordXKK 0xF x 0x0A
  | .ldDtVx x     => wordXKK 0xF x 0x15
  | .ldStVx x     => wordXKK 0xF x 0x18
  | .addIVx x     => wordXKK 0xF x 0x1E
  | .ldFVx x      => wordXKK 0xF x 0x29
  | .ldBVx x      => wordXKK 0xF x 0x33
  | .storeRegs x  => wordXKK 0xF x 0x55
  | .loadRegs x   => wordXKK 0xF x 0x65

/-- One row of the opcode map (R63): a word `w` selects it when `w &&& mask = pattern`. -/
structure OpcodeRow where
  mask    : Word
  pattern : Word
  build   : Fields → Instr

/-- Rows of classes 0x0 to 0x7; the two full-word rows stand before SYS (R59). -/
def opcodeRowsLow : List OpcodeRow :=
  [⟨0xFFFF, 0x00E0, fun _ => .cls⟩,
   ⟨0xFFFF, 0x00EE, fun _ => .ret⟩,
   ⟨0xF000, 0x0000, fun f => .sys f.nnn⟩,
   ⟨0xF000, 0x1000, fun f => .jp f.nnn⟩,
   ⟨0xF000, 0x2000, fun f => .call f.nnn⟩,
   ⟨0xF000, 0x3000, fun f => .seImm f.x f.kk⟩,
   ⟨0xF000, 0x4000, fun f => .sneImm f.x f.kk⟩,
   ⟨0xF000, 0x5000, fun f => .seReg f.x f.y⟩,
   ⟨0xF000, 0x6000, fun f => .ldImm f.x f.kk⟩,
   ⟨0xF000, 0x7000, fun f => .addImm f.x f.kk⟩]

/-- Rows of class 0x8. -/
def opcodeRowsAlu : List OpcodeRow :=
  [⟨0xF00F, 0x8000, fun f => .ldReg f.x f.y⟩,
   ⟨0xF00F, 0x8001, fun f => .or f.x f.y⟩,
   ⟨0xF00F, 0x8002, fun f => .and f.x f.y⟩,
   ⟨0xF00F, 0x8003, fun f => .xor f.x f.y⟩,
   ⟨0xF00F, 0x8004, fun f => .addReg f.x f.y⟩,
   ⟨0xF00F, 0x8005, fun f => .sub f.x f.y⟩,
   ⟨0xF00F, 0x8006, fun f => .shr f.x⟩,
   ⟨0xF00F, 0x8007, fun f => .subn f.x f.y⟩,
   ⟨0xF00F, 0x800E, fun f => .shl f.x⟩]

/-- Rows of classes 0x9 to 0xF. -/
def opcodeRowsHigh : List OpcodeRow :=
  [⟨0xF000, 0x9000, fun f => .sneReg f.x f.y⟩,
   ⟨0xF000, 0xA000, fun f => .ldI f.nnn⟩,
   ⟨0xF000, 0xB000, fun f => .jpV0 f.nnn⟩,
   ⟨0xF000, 0xC000, fun f => .rnd f.x f.kk⟩,
   ⟨0xF000, 0xD000, fun f => .drw f.x f.y f.n⟩,
   ⟨0xF0FF, 0xE09E, fun f => .skp f.x⟩,
   ⟨0xF0FF, 0xE0A1, fun f => .sknp f.x⟩,
   ⟨0xF0FF, 0xF007, fun f => .ldVxDt f.x⟩,
   ⟨0xF0FF, 0xF00A, fun f => .ldVxK f.x⟩,
   ⟨0xF0FF, 0xF015, fun f => .ldDtVx f.x⟩,
   ⟨0xF0FF, 0xF018, fun f => .ldStVx f.x⟩,
   ⟨0xF0FF, 0xF01E, fun f => .addIVx f.x⟩,
   ⟨0xF0FF, 0xF029, fun f => .ldFVx f.x⟩,
   ⟨0xF0FF, 0xF033, fun f => .ldBVx f.x⟩,
   ⟨0xF0FF, 0xF055, fun f => .storeRegs f.x⟩,
   ⟨0xF0FF, 0xF065, fun f => .loadRegs f.x⟩]

/-- The opcode map of R63, one row per row of spec/opcode_table.json and in its order. -/
def opcodeTable : List OpcodeRow := opcodeRowsLow ++ opcodeRowsAlu ++ opcodeRowsHigh

/-- What the opcode map says of a word: the first row it selects, or no handler (R63, R64). -/
def decodeByTable (w : Word) : Except DecodeError Instr :=
  match opcodeTable.find? (fun r => w &&& r.mask == r.pattern) with
  | some r => .ok (r.build (fieldsOf w))
  | none => .error .invalidInstruction

/-- The bits of `i`'s words that are examined: all but the low nibble of 5XYN and 9XYN (R58) and the `y`
field of 8XY6 and 8XYE (R102, R104). -/
def examinedBits (i : Instr) : Word :=
  match i with
  | .seReg _ _ | .sneReg _ _ => 0xFFF0#16
  | .shr _ | .shl _ => 0xFF0F#16
  | _ => 0xFFFF#16

/-- The instructions the dispatch multiplexer answers `Unimplemented` for (R63, R129); the other 22 execute. -/
def Instr.unimplemented (i : Instr) : Bool :=
  match i with
  | .sys _ | .rnd _ _ | .skp _ | .sknp _ | .ldVxDt _ | .ldVxK _ | .ldDtVx _ | .ldStVx _ | .addIVx _
  | .ldFVx _ | .ldBVx _ | .storeRegs _ | .loadRegs _ => true
  | _ => false

/-- The instruction the decoder reads from the word `w` of the opcode table's `nbits` low bits, laid out in
memory order (big-endian, R41); bits from `nbits` on are 0. -/
def decodeTableWord (nbits w : Nat) : Option Instr :=
  match decodeBytes (bytesOfWord (BitVec.ofNat 16 (w % 2 ^ nbits))) with
  | .ok (i, _) => some i
  | .error _ => none

end Sys2Proof
end

