-- ==== Sys2Proof/Machine/State.lean ====
section
/-! DEFINITION. The architectural state of the core (spec/10_state.md), the error kinds (spec/60_exceptions.md,
R130), and the state after initialisation (R38). State is plain data. -/

namespace Sys2Proof.Machine

/-- The five error kinds a Step can raise (R130). The address of `addressOutOfRange` is the first address of
the access (R130, R138; log entry 2). -/
inductive StepError where
  | invalidInstruction
  | unimplemented
  | stackOverflow
  | stackUnderflow
  | addressOutOfRange (addr : Word)
  deriving DecidableEq, Repr

/-- The six error kinds of R130: the five of a Step, and `InvalidProgram`, which only Load returns (R131). -/
inductive ErrorKind where
  | invalidProgram
  | ofStep (k : StepError)
  deriving DecidableEq, Repr

/-- The driver status (R35): `Running` or `Halted(kind)`, `kind` never `InvalidProgram`. -/
inductive Status where
  | running
  | halted (k : StepError)
  deriving DecidableEq, Repr

/-- Memory as the bytes that differ from their value after initialisation: pairs of address and byte, addresses
strictly rising, none equal to what an unlisted address reads as (`Memory.wf` in Ops.lean). -/
abbrev Memory := List Host.Cell

/-- The complete state of the block (table at the head of spec/10_state.md). -/
structure State where
  /-- General registers V0 to VF; VF is the flag (R18, R19). -/
  V      : Vector Byte 16
  /-- The index register (R22). -/
  I      : Word
  /-- The program counter (R23). -/
  pc     : Word
  /-- The stack pointer, twice the depth (R27). -/
  sp     : Word
  /-- The return-address entries (R26). -/
  stack  : Vector Word 16
  /-- The 4096-byte memory (R29). -/
  mem    : Memory
  /-- The framebuffer, row 0 at the top (R32). -/
  fb     : Vector Scanline 32
  /-- The driver status (R35). -/
  status : Status
  deriving DecidableEq, Repr

/-- Reasons the model stops for which the spec gives no effect. The spec's own errors are not here: each is a
next state with `status = Halted` (R133, R140). -/
inductive Fault where
  /-- Raised by CALL and RET when `sp` is no even number from 0 to 32, which the spec says never happens
  (R28) and gives no effect for. Safe: the model stops where a machine in such a state might go on (log
  entry 4). -/
  | illegalStackPointer
  deriving DecidableEq, Repr

/-- Requests and instructions the model gives no meaning. -/
inductive Refusal where
  /-- An instruction whose meaning is not written; no arm of `exec` uses it. Safe: a refusal claims nothing. -/
  | notModelled (mnemonic : String)
  /-- Raised by the Load port for an image of more than 3584 bytes, which the spec says a model refuses (R150).
  Safe: a refusal claims nothing. -/
  | imageTooLong
  deriving DecidableEq, Repr

/-- What a port answers (spec/40_pipeline.md, section 1). -/
inductive Response where
  | ok
  | err (k : ErrorKind)
  | scanlines (rows : Vector Scanline 32)
  deriving DecidableEq, Repr

/-- A port's answer together with the state it leaves. -/
structure Reply where
  response : Response
  state    : State
  deriving DecidableEq, Repr

/-- The requests of the host (spec/40_pipeline.md, section 1); `load` carries the image, whose length is `len`. -/
inductive Request where
  | step
  | load (image : List Byte)
  | framebuffer
  | resume
  deriving DecidableEq, Repr

/-- The state after initialisation at creation (R38, R146, R147): no byte of memory is listed, since an unlisted
byte reads as R38 gives it (the font, then zeros). -/
def State.reset : State where
  V      := Vector.replicate 16 0
  I      := 0
  pc     := BitVec.ofNat 16 Config.base
  sp     := 0
  stack  := Vector.replicate 16 0
  mem    := []
  fb     := Vector.replicate 32 0
  status := .running

end Sys2Proof.Machine
end

