-- ==== Sys2Proof/Machine/Ops.lean ====
section
/-! DEFINITION. The shared operations over memory, registers, the stack and the driver status: every meaning and
the Step are written over these. Raising an error and resuming from one stand at the end. -/

namespace Sys2Proof.Machine

/-! ### Memory (spec/20_memory.md) -/

/-- What an address reads as after initialisation at creation (R38): the font below 0x050, zero from there. -/
def Memory.unlisted (a : Nat) : Byte := FONT[a]?.getD 0

/-- The byte at `a`. -/
def Memory.read (m : Memory) (a : Nat) : Byte :=
  match m with
  | [] => Memory.unlisted a
  | (b, v) :: rest => if a = b then v else Memory.read rest a

/-- Stores `v` at `a` and keeps the canonical form: storing what an unlisted address reads as removes the entry. -/
def Memory.write (m : Memory) (a : Nat) (v : Byte) : Memory :=
  match m with
  | [] => if v = Memory.unlisted a then [] else [(a, v)]
  | (b, w) :: rest =>
    if a < b then (if v = Memory.unlisted a then (b, w) :: rest else (a, v) :: (b, w) :: rest)
    else if a = b then (if v = Memory.unlisted a then rest else (a, v) :: rest)
    else (b, w) :: Memory.write rest a v

/-- Stores consecutive bytes from `a` on. -/
def Memory.writeBytes (m : Memory) (a : Nat) (bs : List Byte) : Memory :=
  match bs with
  | [] => m
  | b :: rest => Memory.writeBytes (Memory.write m a b) (a + 1) rest

/-- The canonical form: addresses strictly rising and inside the address space (R40), and no entry equal to what
an unlisted address reads as. -/
abbrev Memory.wf (m : Memory) : Prop :=
  m.Pairwise (fun c d => c.1 < d.1) ∧ ∀ c ∈ m, c.1 ≤ Config.addrMax ∧ c.2 ≠ Memory.unlisted c.1

/-- `MemRead(addr, 1)` (R14): one byte, or `AddressOutOfRange(addr)` above 0xFFF. -/
def memRead1 (s : State) (addr : Word) : Except StepError Byte :=
  if Config.addrMax < addr.toNat then .error (.addressOutOfRange addr)
  else .ok (s.mem.read addr.toNat)

/-- `MemRead(addr, 2)` (R14, R41): two bytes big-endian, or `AddressOutOfRange(addr)` where the second lies above
0xFFF; no wrap-around (R45). -/
def memRead2 (s : State) (addr : Word) : Except StepError Word :=
  if Config.addrMax < addr.toNat + 1 then .error (.addressOutOfRange addr)
  else .ok (wordOfBytes (s.mem.read addr.toNat) (s.mem.read (addr.toNat + 1)))

/-! ### Registers (spec/10_state.md) -/

/-- `V[x]` (R13, R18). -/
def getV (s : State) (x : Reg) : Byte := s.V[x]

/-- `V[x] <- v` (R13, R18). -/
def setV (s : State) (x : Reg) (v : Byte) : State := { s with V := s.V.set x v }

/-- `I <- v` (R22). -/
def setI (s : State) (v : Word) : State := { s with I := v }

/-- `pc <- v` (R23); any 16-bit value, no alignment check (R44). -/
def setPc (s : State) (v : Word) : State := { s with pc := v }

/-- `fb <- rows` (R32). -/
def setFb (s : State) (rows : Vector Scanline 32) : State := { s with fb := rows }

/-- `status <- st` (R35). -/
def setStatus (s : State) (st : Status) : State := { s with status := st }

/-- `mem <- m`; used by Load only, since no instruction writes memory (R46). -/
def setMem (s : State) (m : Memory) : State := { s with mem := m }

/-- `pc <- pc + 2`: the pre-increment of every Step (R76), and what a taken skip adds again (R89 to R92). -/
def advancePc (s : State) : State := setPc s (s.pc + BitVec.ofNat 16 Config.insnBytes)

/-! ### The stack (R26 to R28) -/

/-- The legal values of `sp`: the even numbers 0 to 32 (R27). -/
abbrev LegalSp (sp : Word) : Prop := sp.toNat ≤ Config.spFull ∧ sp.toNat % Config.spStep = 0

/-- The index `sp/2` of a stack entry (R87, R88); used only where `sp` is legal and below 32. -/
def stackIndex (sp : Word) : Fin 16 := Fin.ofNat 16 (sp.toNat / Config.spStep)

/-- `stack[sp/2] <- v; sp <- sp + 2` (R87). -/
def pushStack (s : State) (v : Word) : State :=
  { s with stack := s.stack.set (stackIndex s.sp) v, sp := s.sp + BitVec.ofNat 16 Config.spStep }

/-- `sp <- sp - 2` (R88); the popped entry keeps its value (R28). -/
def popStack (s : State) : State := { s with sp := s.sp - BitVec.ofNat 16 Config.spStep }

/-- `stack[sp/2]` (R88). -/
def stackAtSp (s : State) : Word := s.stack[stackIndex s.sp]

/-! ### Fetch (R73) -/

/-- The fetch: `MemRead(pc, 2)`, at any `pc` whether odd or even (R44). -/
def fetch (s : State) : Except StepError Word := memRead2 s s.pc

/-! ### Errors (spec/60_exceptions.md) -/

/-- `raise k`: the driver records `status <- Halted(k)` and nothing else changes (R15, R133, R142). -/
def raise (k : StepError) (s : State) : State := setStatus s (.halted k)

/-- Resume (R143): a driver halted by `Unimplemented` returns to `Running`, changing nothing else; in any other
state nothing changes. -/
def resumeDriver (s : State) : State :=
  match s.status with
  | .halted .unimplemented => setStatus s .running
  | _ => s

/-- `Ok` on a running driver, `Err(k)` on one halted by `k`: what a Step returns for the state it leaves (R72, R80,
R133), and what Resume returns for the state it leaves (R143). -/
def responseOf (s : State) : Response :=
  match s.status with
  | .running => .ok
  | .halted k => .err (.ofStep k)

end Sys2Proof.Machine
end

