-- ==== Sys2Proof/Machine/Operands.lean ====
section
/-! DEFINITION. Operand assembly (R57), the ALU's results (spec/43_register_alu.md) and the geometry of a sprite
(R109 to R111). Nothing here is signed (R11). -/

namespace Sys2Proof.Machine

/-- `zext_16(nnn)` (R57). -/
def addrOperand (nnn : Addr) : Word := nnn.setWidth 16

/-- The target of BNNN: `zext_16(nnn) + zext_16(V[0])`, not reduced modulo 4096 (R86). -/
def indexedTarget (nnn : Addr) (v0 : Byte) : Word := nnn.setWidth 16 + v0.setWidth 16

/-- `zext_9(a) + zext_9(b)`, the exact sum of two bytes (R100). -/
def sum9 (a b : Byte) : BitVec 9 := a.setWidth 9 + b.setWidth 9

/-- `s[7:0]` of the 9-bit sum (R100). -/
def sumByte (a b : Byte) : Byte := (sum9 a b).extractLsb' 0 8

/-- `rev_8(b)`: bit `k` of the result is bit `7 - k` of `b` (R12). -/
def rev8 (b : Byte) : Byte :=
  b.extractLsb' 0 1 ++ b.extractLsb' 1 1 ++ b.extractLsb' 2 1 ++ b.extractLsb' 3 1
    ++ b.extractLsb' 4 1 ++ b.extractLsb' 5 1 ++ b.extractLsb' 6 1 ++ b.extractLsb' 7 1

/-- `rotl_64(v, k)` for `k` from 0 to 63 (R12). -/
def rotl64 (v : Scanline) (k : Nat) : Scanline :=
  if k = 0 then v else (v <<< k) ||| (v >>> (Config.screenW - k))

/-- `V[x] mod 64`, the origin column (R111). -/
def originColumn (vx : Byte) : Nat := vx.toNat % Config.screenW

/-- `s_i`: the row's bits placed at column `cx`, wrapping past column 63 (R111). -/
def spriteBits (b : Byte) (cx : Nat) : Scanline := rotl64 ((rev8 b).setWidth 64) cx

/-- `r_i = (V[y] + i) mod 32`, as the index of a scanline (R110). -/
def targetRow (row : Nat) : Fin 32 := Fin.ofNat 32 row

/-- The `n` sprite rows from address `base` on (R109); read only after the bounds check of R108. -/
def spriteBytes (s : State) (base n : Nat) : List Byte :=
  (List.range n).map (fun i => s.mem.read (base + i))

/-- The bounds check of R108 fails: some sprite byte lies above 0xFFF, computed without wrap-around. -/
abbrev SpriteOutOfRange (base n : Nat) : Prop := 1 ≤ n ∧ Config.addrMax < base + n - 1

end Sys2Proof.Machine
end

