-- ==== Sys2Proof/Machine/Flags.lean ====
section
/-! DEFINITION. The flag computations: VF is the only flag (R20), written 0 or 1 as a side effect of five ALU
instructions (spec/43_register_alu.md) and of the draw (R114). -/

namespace Sys2Proof.Machine

/-- Bit 8 of the 9-bit sum: 1 iff `a + b > 255` (R100). -/
def carryFlag (a b : Byte) : Bool := (sum9 a b).getLsbD 8

/-- 1 iff minuend `a` is greater than subtrahend `b`, so 0 when they are equal (R101; spec/90_conflicts.md C1).
SUBN uses it with the operands exchanged (R103). -/
def notBorrowFlag (a b : Byte) : Bool := decide (b.toNat < a.toNat)

/-- The bit SHR shifts out (R102). -/
def shiftedOutRight (a : Byte) : Bool := a.getLsbD 0

/-- The bit SHL shifts out (R104). -/
def shiftedOutLeft (a : Byte) : Bool := a.getLsbD 7

/-- A row collides when it clears a pixel that was set (R113). -/
def rowCollides (old bits : Scanline) : Bool := old &&& bits != 0

/-- The value the flag side effect writes: 0 or 1 (R20). -/
def flagByte (f : Bool) : Byte := if f then 1 else 0

/-- `V[15] <- f` (R93, R114). -/
def setFlag (s : State) (f : Bool) : State := setV s .vf (flagByte f)

end Sys2Proof.Machine
end

