-- ==== Sys2Proof/Machine/Alu.lean ====
section
/-! DEFINITION. Register load and ALU (spec/43_register_alu.md). Operands are read before any write; the result is
written to `V[x]`, and then, by the five flag-writing instructions, the flag to `V[15]` (R93). -/

namespace Sys2Proof.Machine

/-- The end of an ALU instruction without a flag: `V[x] <- result` (R93). -/
def writeResult (x : Reg) (result : Byte) (s : State) : Host.Outcome State Fault Refusal :=
  .next (setV s x result)

/-- The end of a flag-writing ALU instruction: `V[x] <- result`, then `V[15] <- flag`, so the flag wins when
`x = 15` (R93). -/
def writeResultFlag (x : Reg) (result : Byte) (flag : Bool) (s : State) :
    Host.Outcome State Fault Refusal :=
  .next (setFlag (setV s x result) flag)

/-- LD Vx, kk (R94). -/
def execLdImm (x : Reg) (kk : Byte) (s : State) : Host.Outcome State Fault Refusal :=
  writeResult x kk s

/-- ADD Vx, kk (R95): modulo 256, no flag. -/
def execAddImm (x : Reg) (kk : Byte) (s : State) : Host.Outcome State Fault Refusal :=
  writeResult x (getV s x + kk) s

/-- LD Vx, Vy (R96). -/
def execLdReg (x y : Reg) (s : State) : Host.Outcome State Fault Refusal :=
  writeResult x (getV s y) s

/-- OR Vx, Vy (R97). -/
def execOr (x y : Reg) (s : State) : Host.Outcome State Fault Refusal :=
  writeResult x (getV s x ||| getV s y) s

/-- AND Vx, Vy (R98). -/
def execAnd (x y : Reg) (s : State) : Host.Outcome State Fault Refusal :=
  writeResult x (getV s x &&& getV s y) s

/-- XOR Vx, Vy (R99). -/
def execXor (x y : Reg) (s : State) : Host.Outcome State Fault Refusal :=
  writeResult x (getV s x ^^^ getV s y) s

/-- ADD Vx, Vy (R100). -/
def execAddReg (x y : Reg) (s : State) : Host.Outcome State Fault Refusal :=
  writeResultFlag x (sumByte (getV s x) (getV s y)) (carryFlag (getV s x) (getV s y)) s

/-- SUB Vx, Vy (R101): `V[x] - V[y]`. -/
def execSub (x y : Reg) (s : State) : Host.Outcome State Fault Refusal :=
  writeResultFlag x (getV s x - getV s y) (notBorrowFlag (getV s x) (getV s y)) s

/-- SHR Vx (R102): shifts `V[x]` in place. -/
def execShr (x : Reg) (s : State) : Host.Outcome State Fault Refusal :=
  writeResultFlag x (getV s x >>> 1) (shiftedOutRight (getV s x)) s

/-- SUBN Vx, Vy (R103): `V[y] - V[x]`. -/
def execSubn (x y : Reg) (s : State) : Host.Outcome State Fault Refusal :=
  writeResultFlag x (getV s y - getV s x) (notBorrowFlag (getV s y) (getV s x)) s

/-- SHL Vx (R104): shifts `V[x]` in place. -/
def execShl (x : Reg) (s : State) : Host.Outcome State Fault Refusal :=
  writeResultFlag x (getV s x <<< 1) (shiftedOutLeft (getV s x)) s

end Sys2Proof.Machine
end

