-- ==== Sys2Proof/Machine/Control.lean ====
section
/-! DEFINITION. Control flow (spec/41_control_flow.md): JP, JP V0, CALL, RET. A meaning runs with `pc` already
advanced past the instruction (R76, R77). -/

namespace Sys2Proof.Machine

/-- JP nnn (R85): `pc <- zext_16(nnn)`. -/
def execJp (nnn : Addr) (s : State) : Host.Outcome State Fault Refusal :=
  .next (setPc s (addrOperand nnn))

/-- JP V0, nnn (R86): always V0, whatever the `x` field. -/
def execJpV0 (nnn : Addr) (s : State) : Host.Outcome State Fault Refusal :=
  .next (setPc s (indexedTarget nnn (getV s .v0)))

/-- CALL nnn (R87): pushes the pre-incremented `pc`; a full stack raises `StackOverflow` before any write. An `sp`
that R28 excludes is a fault (log entry 4). -/
def execCall (nnn : Addr) (s : State) : Host.Outcome State Fault Refusal :=
  if s.sp.toNat = Config.spFull then .next (raise .stackOverflow s)
  else if LegalSp s.sp then .next (setPc (pushStack s s.pc) (addrOperand nnn))
  else .fault .illegalStackPointer

/-- RET (R88): `sp` is lowered first, then the entry at `sp/2` is read; an empty stack raises `StackUnderflow`
before any write. An `sp` that R28 excludes is a fault (log entry 4). -/
def execRet (s : State) : Host.Outcome State Fault Refusal :=
  if s.sp.toNat = 0 then .next (raise .stackUnderflow s)
  else if LegalSp s.sp then .next (setPc (popStack s) (stackAtSp (popStack s)))
  else .fault .illegalStackPointer

end Sys2Proof.Machine
end

