-- ==== Sys2Proof/Machine/Display.lean ====
section
/-! DEFINITION. Index register and display (spec/44_index_display.md): LD I, CLS, DRW. -/

namespace Sys2Proof.Machine

/-- LD I, nnn (R105). -/
def execLdI (nnn : Addr) (s : State) : Host.Outcome State Fault Refusal :=
  .next (setI s (addrOperand nnn))

/-- CLS (R106): every scanline becomes 0; VF is not written. -/
def execCls (s : State) : Host.Outcome State Fault Refusal :=
  .next (setFb s (Vector.replicate 32 0))

/-- The row loop of a draw: each row is XORed onto its scanline, in increasing order (R110 to R112), and the flag is
the OR of all rows' collisions (R113, R114). `row` is the unreduced row number `V[y] + i`. -/
def blit (cx : Nat) (row : Nat) (rows : List Byte) (fb : Vector Scanline 32) :
    Vector Scanline 32 × Bool :=
  match rows with
  | [] => (fb, false)
  | b :: rest =>
    let old := fb[targetRow row]
    let bits := spriteBits b cx
    let done := blit cx (row + 1) rest (fb.set (targetRow row) (old ^^^ bits))
    (done.1, rowCollides old bits || done.2)

/-- DRW Vx, Vy, n (R107 to R115): `V[x]`, `V[y]` and `I` are read before any write; the bounds check comes before
anything is read or written (R108); VF is written once, after the rows (R114), and is 0 for `n = 0` (R115). -/
def execDrw (x y : Reg) (n : Fin 16) (s : State) : Host.Outcome State Fault Refusal :=
  if SpriteOutOfRange s.I.toNat n.val then .next (raise (.addressOutOfRange s.I) s)
  else
    let drawn := blit (originColumn (getV s x)) (getV s y).toNat (spriteBytes s s.I.toNat n.val) s.fb
    .next (setFlag (setFb s drawn.1) drawn.2)

end Sys2Proof.Machine
end

