-- ==== Sys2Proof/Machine/Skip.lean ====
section
/-! DEFINITION. Conditional skips (spec/42_skip.md): a taken skip passes over exactly one two-byte word (R66). -/

namespace Sys2Proof.Machine

/-- `if c: pc <- pc + 2`, on the pre-incremented `pc` (R76). -/
def skipIf (c : Bool) (s : State) : Host.Outcome State Fault Refusal :=
  .next (if c then advancePc s else s)

/-- SE Vx, kk (R89). -/
def execSeImm (x : Reg) (kk : Byte) (s : State) : Host.Outcome State Fault Refusal :=
  skipIf (getV s x == kk) s

/-- SNE Vx, kk (R90). -/
def execSneImm (x : Reg) (kk : Byte) (s : State) : Host.Outcome State Fault Refusal :=
  skipIf (getV s x != kk) s

/-- SE Vx, Vy (R91). -/
def execSeReg (x y : Reg) (s : State) : Host.Outcome State Fault Refusal :=
  skipIf (getV s x == getV s y) s

/-- SNE Vx, Vy (R92). -/
def execSneReg (x y : Reg) (s : State) : Host.Outcome State Fault Refusal :=
  skipIf (getV s x != getV s y) s

end Sys2Proof.Machine
end

