-- ==== Sys2Proof/Machine/Unimplemented.lean ====
section
/-! DEFINITION. The 13 recognised but unimplemented instructions (spec/45_unimplemented.md). Each raises
`Unimplemented`: no operand is read, and only `status` changes beyond the pre-increment (R129). The "conventional
meanings" of that file are not this block's behaviour. -/

namespace Sys2Proof.Machine

/-- The common effect (R129): `raise Unimplemented`. -/
def raiseUnimplemented (s : State) : Host.Outcome State Fault Refusal :=
  .next (raise .unimplemented s)

/-- SYS nnn (R116). -/
def execSys (_nnn : Addr) (s : State) : Host.Outcome State Fault Refusal := raiseUnimplemented s

/-- RND Vx, kk (R117). -/
def execRnd (_x : Reg) (_kk : Byte) (s : State) : Host.Outcome State Fault Refusal := raiseUnimplemented s

/-- SKP Vx (R118). -/
def execSkp (_x : Reg) (s : State) : Host.Outcome State Fault Refusal := raiseUnimplemented s

/-- SKNP Vx (R119). -/
def execSknp (_x : Reg) (s : State) : Host.Outcome State Fault Refusal := raiseUnimplemented s

/-- LD Vx, DT (R120). -/
def execLdVxDt (_x : Reg) (s : State) : Host.Outcome State Fault Refusal := raiseUnimplemented s

/-- LD Vx, K (R121): the Step does not wait. -/
def execLdVxK (_x : Reg) (s : State) : Host.Outcome State Fault Refusal := raiseUnimplemented s

/-- LD DT, Vx (R122). -/
def execLdDtVx (_x : Reg) (s : State) : Host.Outcome State Fault Refusal := raiseUnimplemented s

/-- LD ST, Vx (R123). -/
def execLdStVx (_x : Reg) (s : State) : Host.Outcome State Fault Refusal := raiseUnimplemented s

/-- ADD I, Vx (R124). -/
def execAddIVx (_x : Reg) (s : State) : Host.Outcome State Fault Refusal := raiseUnimplemented s

/-- LD F, Vx (R125). -/
def execLdFVx (_x : Reg) (s : State) : Host.Outcome State Fault Refusal := raiseUnimplemented s

/-- LD B, Vx (R126). -/
def execLdBVx (_x : Reg) (s : State) : Host.Outcome State Fault Refusal := raiseUnimplemented s

/-- LD [I], Vx (R127). -/
def execStoreRegs (_x : Reg) (s : State) : Host.Outcome State Fault Refusal := raiseUnimplemented s

/-- LD Vx, [I] (R128). -/
def execLoadRegs (_x : Reg) (s : State) : Host.Outcome State Fault Refusal := raiseUnimplemented s

end Sys2Proof.Machine
end

