-- ==== Sys2Proof/Machine/Step.lean ====
section
/-! DEFINITION. One Step (spec/40_pipeline.md, R71 to R80), and where its next instruction is stored. -/

namespace Sys2Proof.Machine

/-- The Step: halted check (R72), fetch (R73), decode and select (R74, R75), pre-increment (R76), execute (R77) or
raise (R78, R79). An error is a next state with `status = Halted` (R15, R133); `responseOf` gives the port's answer. -/
def step (s : State) : Host.Outcome State Fault Refusal :=
  match s.status with
  | .halted _ => .next s
  | .running =>
    match fetch s with
    | .error k => .next (raise k s)
    | .ok w =>
      match decode w with
      | .error _ => .next (raise .invalidInstruction (advancePc s))
      | .ok i => exec i (advancePc s)

/-- `s` with the instruction word `w` (its `nbits` low bits, the rest 0) stored big-endian at `pc`, where a Step
fetches (R41, R73), and with the driver running, which the fetch needs (R72). It stands for a host's Load of that
word at `pc` (log entry 8). A byte that would lie above 0xFFF is not stored. -/
def State.withFetchWord (s : State) (nbits w : Nat) : State :=
  let fits := (bytesOfWord (BitVec.ofNat 16 (w % 2 ^ nbits))).take (Config.memSize - s.pc.toNat)
  setStatus (setMem s (s.mem.writeBytes s.pc.toNat fits)) .running

end Sys2Proof.Machine
end

