-- ==== Sys2Proof/Machine/Ports.lean ====
section
/-! DEFINITION. The block's ports (spec/40_pipeline.md, section 1): Step, Load, Framebuffer read and Resume, each one
atomic request (R82) with the answer it returns. Nothing else outside a Step changes the state (R141). -/

namespace Sys2Proof.Machine

/-- An outcome's next state as a port's reply; a Step answers by the status it leaves (R72, R80, R133). -/
def replyOf (o : Host.Outcome State Fault Refusal) : Host.Outcome Reply Fault Refusal :=
  match o with
  | .next t => .next ⟨responseOf t, t⟩
  | .fault r => .fault r
  | .refused r => .refused r

/-- The Step port (R71). -/
def stepPort (s : State) : Host.Outcome Reply Fault Refusal := replyOf (step s)

/-- Initialise (R147): every register, stack entry, scanline and memory byte to 0, then the font, `pc` and `status`;
whatever the state before. -/
def initialise (_s : State) : State := State.reset

/-- The Load port (R148 to R150): no byte is `InvalidProgram` and changes nothing; 1 to 3584 bytes initialise the
block and are copied to 0x200 on, in any driver state; more is refused. -/
def loadPort (image : List Byte) (s : State) : Host.Outcome Reply Fault Refusal :=
  if image.length = 0 then .next ⟨.err .invalidProgram, s⟩
  else if image.length ≤ Config.maxImage then
    .next ⟨.ok, setMem (initialise s) ((initialise s).mem.writeBytes Config.base image)⟩
  else .refused .imageTooLong

/-- The Framebuffer read port (R34): the 32 scanlines; no state changes. -/
def framebufferPort (s : State) : Host.Outcome Reply Fault Refusal := .next ⟨.scanlines s.fb, s⟩

/-- The Resume port (R143): `Ok` where the driver runs afterwards, `Err(k)` where it stays halted by `k`. -/
def resumePort (s : State) : Host.Outcome Reply Fault Refusal :=
  .next ⟨responseOf (resumeDriver s), resumeDriver s⟩

/-- One request of the host (R82). -/
def serve (r : Request) (s : State) : Host.Outcome Reply Fault Refusal :=
  match r with
  | .step => stepPort s
  | .load image => loadPort image s
  | .framebuffer => framebufferPort s
  | .resume => resumePort s

end Sys2Proof.Machine
end

