-- ==== Sys2Proof/Safety.lean ====
section
/-! DEFINITION. What counts as a legal state and as a safe run, in the terms the statements use. -/

namespace Sys2Proof.Machine

/-- What the spec says of every state between requests: `sp` is legal (R27, R28), `I` has its top four bits 0
(R22), `pc` is at most 0x10FE (R25), every stack entry is an address that follows a fetched instruction, at most
0x1000 (R25, R87), and memory is in its canonical form. -/
structure Legal (s : State) : Prop where
  sp    : LegalSp s.sp
  I     : s.I.toNat ≤ 0xFFF
  pc    : s.pc.toNat ≤ 0x10FE
  stack : ∀ j : Fin 16, s.stack[j].toNat ≤ 0x1000
  mem   : s.mem.wf

/-- The pixel at row `r`, column `c` (R32). -/
def pixel (fb : Vector Scanline 32) (r : Fin 32) (c : Fin 64) : Bool := fb[r].getLsbD c

/-- The sprite pixel a draw puts at row `r`, column `c`: `true` when some row `i < n` of the sprite lands on `r`
(R110) and has the bit of column `c` set, bit 7 at the origin column `vx mod 64` and bit 0 seven columns to its
right, wrapping past column 63 (R109, R111). -/
def spritePixel (m : Memory) (base n : Nat) (vx vy : Byte) (r : Fin 32) (c : Fin 64) : Bool :=
  (List.range n).any fun i =>
    (List.range 8).any fun j =>
      (vy.toNat + i) % 32 == r.val && (vx.toNat + j) % 64 == c.val && (m.read (base + i)).getLsbD (7 - j)

/-- The Step of `s` passes the fetch (R73) and selects `i` (R75): the two bytes at `pc`, big-endian (R41), decode to
`i`. -/
def Fetched (s : State) (i : Instr) : Prop :=
  s.pc.toNat ≤ 0xFFE ∧ decode (s.mem.read s.pc.toNat ++ s.mem.read (s.pc.toNat + 1)) = .ok i

/-- The Step of `s` passes the fetch and its word selects no handler (R64, R73). -/
def FetchedInvalid (s : State) : Prop :=
  s.pc.toNat ≤ 0xFFE ∧
    decode (s.mem.read s.pc.toNat ++ s.mem.read (s.pc.toNat + 1)) = .error .invalidInstruction

/-- Every word with the fixed bits `pattern` under `mask` selects the instruction `build` makes of its fields (R63). -/
def Selects (mask pattern : Word) (build : Fields → Instr) : Prop :=
  ∀ w : Word, w &&& mask = pattern → decode w = .ok (build (fieldsOf w))

/-- The word `w` selects no handler, and a Step that fetches it raises `InvalidInstruction` (R60 to R62, R78). -/
def RaisesInvalid (w : Word) : Prop :=
  decode w = .error .invalidInstruction ∧
  ∀ s : State, s.status = .running → s.pc.toNat ≤ 0xFFE →
    s.mem.read s.pc.toNat ++ s.mem.read (s.pc.toNat + 1) = w →
    step s = .next { s with pc := s.pc + 2, status := .halted .invalidInstruction }

/-- The font area holds the parameter FONT (R30, R49). -/
def FontIntact (s : State) : Prop := ∀ a < 80, s.mem.read a = FONT[a]?.getD 0

/-- The general registers an instruction reads (the table at the head of spec/10_state.md). -/
def readRegs (i : Instr) : List Reg :=
  match i with
  | .seImm x _ | .sneImm x _ | .addImm x _ | .shr x | .shl x => [x]
  | .ldReg _ y => [y]
  | .seReg x y | .sneReg x y | .or x y | .and x y | .xor x y | .addReg x y | .sub x y | .subn x y
  | .drw x y _ => [x, y]
  | .jpV0 _ => [.v0]
  | _ => []

/-- The register an instruction names as its destination. -/
def destReg (i : Instr) : Option Reg :=
  match i with
  | .ldImm x _ | .addImm x _ | .ldReg x _ | .or x _ | .and x _ | .xor x _ | .addReg x _ | .sub x _
  | .shr x | .subn x _ | .shl x => some x
  | _ => none

/-- The instructions that write VF as a side effect (R20). -/
def writesFlag (i : Instr) : Bool :=
  match i with
  | .addReg _ _ | .sub _ _ | .shr _ | .subn _ _ | .shl _ | .drw _ _ _ => true
  | _ => false

/-- `f` applied to the next state an outcome holds; a fault or refusal stays as it is. -/
def mapNext (f : State → State) (o : Host.Outcome State Fault Refusal) : Host.Outcome State Fault Refusal :=
  match o with
  | .next t => .next (f t)
  | .fault r => .fault r
  | .refused r => .refused r

/-- The end state of a run of `k` Steps (R84): the state after the `k`-th, or after the first that returns an error,
whichever comes first. -/
def endState (k : Nat) (s : State) : Host.Outcome State Fault Refusal :=
  match k with
  | 0 => .next s
  | k + 1 =>
    match step s with
    | .next t => if t.status = .running then endState k t else .next t
    | .fault r => .fault r
    | .refused r => .refused r

/-- A safe run of `k` Steps: every Step returns `Ok` (R80). -/
def SafeRun (k : Nat) (s : State) : Prop := ∃ t, endState k s = .next t ∧ t.status = .running

end Sys2Proof.Machine
end

