-- ==== Sys2Proof/Certificates/Slice0/Obligations.lean ====
section
/-! DEFINITION. The statements for the provers. A docstring names the rule a statement formalises; "derived" says that
it rests on an inference or a decision that the spec marks as its own, or on several rules. `exec i s` runs on the
state whose `pc` is already advanced past the instruction (R76, R77). -/

open Sys2Proof Sys2Proof.Machine

/-! ### Encoding (spec/30_encoding.md) -/

/-- Derived from R55 and R63: decoding the word of a well-formed instruction gives the instruction, for all 35 rows and
every operand value. -/
def Obligations.DecodeOfEncodeIsIdentity : Prop :=
  ∀ i : Instr, i.wellFormed = true → decode (encode i) = .ok i

/-- Derived from R55, R58, R63, R102, R104: a word that decodes is, on the bits that are examined, the word the encoder
writes for its instruction; only the ignored nibbles are lost. -/
def Obligations.EncodeOfDecodeKeepsExaminedBits : Prop :=
  ∀ (w : Word) (i : Instr), decode w = .ok i →
    i.wellFormed = true ∧ encode i &&& examinedBits i = w &&& examinedBits i

/-- Derived from R58 to R63: the nested selection by class and sub-opcode answers, for every word, what the opcode map of
masks and patterns answers. -/
def Obligations.DecoderIsTheOpcodeMap : Prop :=
  ∀ w : Word, decode w = decodeByTable w

/-- Derived: R70's two words; words that the class alone selects (R58); and words of classes 0x8, 0xE and 0xF, which rest
on R60 to R62, the spec's own decision D3 (log entry 5). -/
def Obligations.SpecWordsDecodeAsTheSpecSays : Prop :=
  decode 0x00E0#16 = .ok .cls ∧ decode 0x1234#16 = .ok (.jp 0x234#12) ∧
  decode 0x3310#16 = .ok (.seImm 3 0x10#8) ∧ decode 0x512F#16 = .ok (.seReg 1 2) ∧
  decode 0x8127#16 = .ok (.subn 1 2) ∧ decode 0xD015#16 = .ok (.drw 0 1 5) ∧
  decode 0xE1A1#16 = .ok (.sknp 1) ∧ decode 0xF365#16 = .ok (.loadRegs 3) ∧
  decode 0x8008#16 = .error .invalidInstruction

/-- R58: in classes 0x1 to 0x7 and 0x9 to 0xD the class alone selects; the operands are cut as R55 says, and the low
nibble of classes 0x5 and 0x9 is not examined. -/
def Obligations.ClassAloneSelectsTheHandler : Prop :=
  ∀ w : Word,
    let cls := w.extractLsb' 12 4
    let x := (w.extractLsb' 8 4).toFin
    let y := (w.extractLsb' 4 4).toFin
    let n := (w.extractLsb' 0 4).toFin
    let nnn := w.extractLsb' 0 12
    let kk := w.extractLsb' 0 8
    (cls = 0x1#4 → decode w = .ok (.jp nnn)) ∧ (cls = 0x2#4 → decode w = .ok (.call nnn)) ∧
    (cls = 0x3#4 → decode w = .ok (.seImm x kk)) ∧ (cls = 0x4#4 → decode w = .ok (.sneImm x kk)) ∧
    (cls = 0x5#4 → decode w = .ok (.seReg x y)) ∧ (cls = 0x6#4 → decode w = .ok (.ldImm x kk)) ∧
    (cls = 0x7#4 → decode w = .ok (.addImm x kk)) ∧ (cls = 0x9#4 → decode w = .ok (.sneReg x y)) ∧
    (cls = 0xA#4 → decode w = .ok (.ldI nnn)) ∧ (cls = 0xB#4 → decode w = .ok (.jpV0 nnn)) ∧
    (cls = 0xC#4 → decode w = .ok (.rnd x kk)) ∧ (cls = 0xD#4 → decode w = .ok (.drw x y n))

/-- Derived from R59, the spec's own decision D3: class 0x0 selects by the whole word, and every SYS is
`Unimplemented`. -/
def Obligations.ClassZeroSelectsByTheWholeWord : Prop :=
  ∀ w : Word, w.extractLsb' 12 4 = 0x0#4 →
    (w = 0x00E0#16 → decode w = .ok .cls) ∧ (w = 0x00EE#16 → decode w = .ok .ret) ∧
    (w ≠ 0x00E0#16 → w ≠ 0x00EE#16 → decode w = .ok (.sys (w.extractLsb' 0 12)) ∧
      (Instr.sys (w.extractLsb' 0 12)).unimplemented = true)

/-- Derived from R60, the spec's own decision D3: class 0x8 selects by the low nibble; the other seven values select no
handler and raise `InvalidInstruction`. -/
def Obligations.ClassEightSelectsByTheLowNibble : Prop :=
  ∀ w : Word, w.extractLsb' 12 4 = 0x8#4 →
    let x := (w.extractLsb' 8 4).toFin
    let y := (w.extractLsb' 4 4).toFin
    let n := w.extractLsb' 0 4
    (n = 0x0#4 → decode w = .ok (.ldReg x y)) ∧ (n = 0x1#4 → decode w = .ok (.or x y)) ∧
    (n = 0x2#4 → decode w = .ok (.and x y)) ∧ (n = 0x3#4 → decode w = .ok (.xor x y)) ∧
    (n = 0x4#4 → decode w = .ok (.addReg x y)) ∧ (n = 0x5#4 → decode w = .ok (.sub x y)) ∧
    (n = 0x6#4 → decode w = .ok (.shr x)) ∧ (n = 0x7#4 → decode w = .ok (.subn x y)) ∧
    (n = 0xE#4 → decode w = .ok (.shl x)) ∧
    (n ∈ [0x8#4, 0x9#4, 0xA#4, 0xB#4, 0xC#4, 0xD#4, 0xF#4] → RaisesInvalid w)

/-- Derived from R61, the spec's own decision D3: class 0xE selects by the low byte; both its instructions are
`Unimplemented`, and the other 254 values raise `InvalidInstruction`. -/
def Obligations.ClassESelectsByTheLowByte : Prop :=
  ∀ w : Word, w.extractLsb' 12 4 = 0xE#4 →
    let x := (w.extractLsb' 8 4).toFin
    let kk := w.extractLsb' 0 8
    (kk = 0x9E#8 → decode w = .ok (.skp x)) ∧ (kk = 0xA1#8 → decode w = .ok (.sknp x)) ∧
    (∀ i, decode w = .ok i → i.unimplemented = true) ∧
    (kk ∉ [0x9E#8, 0xA1#8] → RaisesInvalid w)

/-- Derived from R62, the spec's own decision D3: class 0xF selects by the low byte; its nine instructions are
`Unimplemented`, and the other 247 values raise `InvalidInstruction`. -/
def Obligations.ClassFSelectsByTheLowByte : Prop :=
  ∀ w : Word, w.extractLsb' 12 4 = 0xF#4 →
    let x := (w.extractLsb' 8 4).toFin
    let kk := w.extractLsb' 0 8
    (kk = 0x07#8 → decode w = .ok (.ldVxDt x)) ∧ (kk = 0x0A#8 → decode w = .ok (.ldVxK x)) ∧
    (kk = 0x15#8 → decode w = .ok (.ldDtVx x)) ∧ (kk = 0x18#8 → decode w = .ok (.ldStVx x)) ∧
    (kk = 0x1E#8 → decode w = .ok (.addIVx x)) ∧ (kk = 0x29#8 → decode w = .ok (.ldFVx x)) ∧
    (kk = 0x33#8 → decode w = .ok (.ldBVx x)) ∧ (kk = 0x55#8 → decode w = .ok (.storeRegs x)) ∧
    (kk = 0x65#8 → decode w = .ok (.loadRegs x)) ∧
    (∀ i, decode w = .ok i → i.unimplemented = true) ∧
    (kk ∉ [0x07#8, 0x0A#8, 0x15#8, 0x18#8, 0x1E#8, 0x29#8, 0x33#8, 0x55#8, 0x65#8] → RaisesInvalid w)

/-- Derived from R60, R61, R62 and R64 (its list of words, not its counts): the invalid encodings are exactly three
sets of words, and each makes a Step raise `InvalidInstruction` after the pre-increment. -/
def Obligations.InvalidEncodingsAreExactlyThese : Prop :=
  let in8 : Word → Bool := fun w => w.extractLsb' 12 4 == 0x8#4 &&
    [0x8#4, 0x9#4, 0xA#4, 0xB#4, 0xC#4, 0xD#4, 0xF#4].contains (w.extractLsb' 0 4)
  let inE : Word → Bool := fun w => w.extractLsb' 12 4 == 0xE#4 &&
    !([0x9E#8, 0xA1#8].contains (w.extractLsb' 0 8))
  let inF : Word → Bool := fun w => w.extractLsb' 12 4 == 0xF#4 &&
    !([0x07#8, 0x0A#8, 0x15#8, 0x18#8, 0x1E#8, 0x29#8, 0x33#8, 0x55#8, 0x65#8].contains (w.extractLsb' 0 8))
  (∀ w : Word, decode w = .error .invalidInstruction ↔ (in8 w || inE w || inF w) = true) ∧
  (∀ w : Word, decode w ≠ .error .truncated) ∧
  (∀ s : State, s.status = .running → s.pc.toNat ≤ 0xFFE →
    (let w := s.mem.read s.pc.toNat ++ s.mem.read (s.pc.toNat + 1)
     (in8 w || inE w || inF w) = true) →
    step s = .next { s with pc := s.pc + 2, status := .halted .invalidInstruction })

/-! ### The Step (spec/40_pipeline.md) -/

/-- Derived from R73 to R77: on a running driver, a Step whose two bytes at `pc` decode to `i` is `exec i` of the state
with `pc` advanced by 2; at any `pc` up to 0xFFE, odd or even. -/
def Obligations.StepRunsTheDecodedInstruction : Prop :=
  ∀ (s : State) (i : Instr), s.status = .running → s.pc.toNat ≤ 0xFFE →
    decode (s.mem.read s.pc.toNat ++ s.mem.read (s.pc.toNat + 1)) = .ok i →
    step s = exec i { s with pc := s.pc + 2 }

/-- Derived from R73, the spec's own decisions D7 and D19: the fetch reads `mem[pc] ++ mem[pc+1]`; above 0xFFE it raises
`AddressOutOfRange(pc)` and nothing but the status changes, `pc` included.
The address is kept in `status` by the model's inference, log entry 2. -/
def Obligations.FetchIsBigEndianAndNeverWraps : Prop :=
  ∀ s : State,
    (s.pc.toNat ≤ 0xFFE → fetch s = .ok (s.mem.read s.pc.toNat ++ s.mem.read (s.pc.toNat + 1))) ∧
    (0xFFE < s.pc.toNat → fetch s = .error (.addressOutOfRange s.pc)) ∧
    (0xFFE < s.pc.toNat → s.status = .running →
      step s = .next { s with status := .halted (.addressOutOfRange s.pc) })

/-- Derived from R72, the spec's own decision D14: a Step of a halted driver changes nothing and returns the error that
halted it; only a successful Load and, for `Unimplemented`, Resume return the driver to `Running`, and both do. -/
def Obligations.HaltedDriverStaysHalted : Prop :=
  ∀ (s : State) (k : StepError), s.status = .halted k →
    stepPort s = .next ⟨.err (.ofStep k), s⟩ ∧
    (∀ (r : Request) (p : Reply), serve r s = .next p → p.state.status = .running →
      (∃ image, r = .load image) ∨ (r = .resume ∧ k = .unimplemented)) ∧
    (∀ image : List Byte, 1 ≤ image.length → image.length ≤ 3584 →
      ∃ t, serve (.load image) s = .next ⟨.ok, t⟩ ∧ t.status = .running) ∧
    (k = .unimplemented → serve .resume s = .next ⟨.ok, { s with status := .running }⟩)

/-- R76: `pc <- pc + 2` happens for every outcome of the selection, and stays when the handler then raises. -/
def Obligations.PreIncrementForEveryOutcome : Prop :=
  ∀ s : State, s.status = .running → s.pc.toNat ≤ 0xFFE →
    (∀ i, decode (s.mem.read s.pc.toNat ++ s.mem.read (s.pc.toNat + 1)) = .ok i →
      step s = exec i { s with pc := s.pc + 2 }) ∧
    (∀ i t, decode (s.mem.read s.pc.toNat ++ s.mem.read (s.pc.toNat + 1)) = .ok i → i.unimplemented = true →
      step s = .next t → t.pc = s.pc + 2) ∧
    (∀ e t, decode (s.mem.read s.pc.toNat ++ s.mem.read (s.pc.toNat + 1)) = .error e →
      step s = .next t → t.pc = s.pc + 2) ∧
    (∀ t k, step s = .next t → t.status = .halted k → t.pc = s.pc + 2)

/-- R78: a word that selects no handler leaves `pc` advanced, `status` halted, and everything else as it was. -/
def Obligations.InvalidInstructionStep : Prop :=
  ∀ s : State, s.status = .running → s.pc.toNat ≤ 0xFFE →
    decode (s.mem.read s.pc.toNat ++ s.mem.read (s.pc.toNat + 1)) = .error .invalidInstruction →
    stepPort s = .next ⟨.err (.ofStep .invalidInstruction),
      { s with pc := s.pc + 2, status := .halted .invalidInstruction }⟩

/-- R79: an unimplemented instruction, whatever its operands, leaves `pc` advanced, `status` halted, and everything
else as it was. -/
def Obligations.UnimplementedStep : Prop :=
  ∀ (s : State) (i : Instr), s.status = .running → s.pc.toNat ≤ 0xFFE →
    decode (s.mem.read s.pc.toNat ++ s.mem.read (s.pc.toNat + 1)) = .ok i → i.unimplemented = true →
    stepPort s = .next ⟨.err (.ofStep .unimplemented),
      { s with pc := s.pc + 2, status := .halted .unimplemented }⟩

/-- Derived from R72, R80 and R133: a Step answers `Ok` exactly when it leaves the driver running, `Err(k)` exactly when it
leaves it halted by `k`, and nothing else. That the response follows from the status is the model's inference, log entry
1; which Steps leave the driver running is said by ErrorKindsHaveTheseCauses. -/
def Obligations.StepAnswersByTheStatusItLeaves : Prop :=
  ∀ (s : State) (p : Reply), stepPort s = .next p →
    (p.response = .ok ↔ p.state.status = .running) ∧
    (∀ k, p.response = .err (.ofStep k) ↔ p.state.status = .halted k) ∧
    (p.response = .ok ∨ ∃ k, p.response = .err (.ofStep k))

/-! ### Errors (spec/60_exceptions.md) -/

/-- Derived from R140, an inference of the spec: after a Step that returns `Err(k)`, every piece of state equals its
value before, except `status` and, where the driver ran and the fetch passed, `pc`, advanced by 2. -/
def Obligations.ErrorsArePrecise : Prop :=
  ∀ (s t : State) (k : StepError), stepPort s = .next ⟨.err (.ofStep k), t⟩ →
    t = { s with
      pc := if s.status = .running ∧ s.pc.toNat ≤ 0xFFE then s.pc + 2 else s.pc
      status := .halted k }

/-- Derived from R130, with the spec's own decisions D5 to D7: the six error kinds, each with its cause, the address it
records, and the `pc` and `status` it leaves. That the address is kept in `status` is the model's inference, log entry 2.
`sp` is assumed legal, which R28 says it always is (LegalStatesStayLegal). -/
def Obligations.ErrorKindsHaveTheseCauses : Prop :=
  (∀ s : State, s.status = .running → LegalSp s.sp →
    ∃ t, step s = .next t ∧
      (t.status = .halted .invalidInstruction ↔ FetchedInvalid s) ∧
      (t.status = .halted .unimplemented ↔ ∃ i, Fetched s i ∧ i.unimplemented = true) ∧
      (t.status = .halted .stackOverflow ↔ (∃ nnn, Fetched s (.call nnn)) ∧ s.sp = 32) ∧
      (t.status = .halted .stackUnderflow ↔ Fetched s .ret ∧ s.sp = 0) ∧
      (∀ a, t.status = .halted (.addressOutOfRange a) ↔
        (0xFFE < s.pc.toNat ∧ a = s.pc) ∨
        ((∃ x y n, Fetched s (.drw x y n) ∧ 1 ≤ n.val ∧ 0xFFF < s.I.toNat + n.val - 1) ∧ a = s.I)) ∧
      (t.status ≠ .running → t.pc = if s.pc.toNat ≤ 0xFFE then s.pc + 2 else s.pc)) ∧
  (∀ (s : State) (image : List Byte) (t : State),
    loadPort image s = .next ⟨.err .invalidProgram, t⟩ ↔ image.length = 0 ∧ t = s) ∧
  (∀ (s : State) (p : Reply), stepPort s = .next p → p.response ≠ .err .invalidProgram)

/-! ### Invariants of the state (spec/10_state.md) -/

/-- Derived from R22, R25, R28 and R87: every Step keeps the legal states: `sp` even and at most 32, `I` at most 0xFFF,
`pc` at most 0x10FE, stack entries at most 0x1000 (this model's inference, log entry 11), memory canonical (this model's
own form, log entry 10). -/
def Obligations.LegalStatesStayLegal : Prop :=
  ∀ s t : State, Legal s → step s = .next t → Legal t

/-- Derived from R38: the state after creation is legal. -/
def Obligations.ResetStateIsLegal : Prop := Legal State.reset

/-- Derived from R149 and R38: a successful Load leaves a legal state, whatever the state before. -/
def Obligations.LoadLeavesALegalState : Prop :=
  ∀ (image : List Byte) (s t : State), loadPort image s = .next ⟨.ok, t⟩ → Legal t

/-- Derived from R83 and R28: a Step of a legal state always completes with a next state; the model's own fault is not
reached. -/
def Obligations.LegalStepAlwaysCompletes : Prop :=
  ∀ s : State, Legal s → ∃ t, step s = .next t

/-- The model's choice (log entry 4): CALL and RET stop by name at an `sp` that R28 says cannot occur. -/
def Obligations.IllegalStackPointerStops : Prop :=
  ∀ (s : State) (nnn : Addr), ¬ LegalSp s.sp →
    exec (.call nnn) s = .fault .illegalStackPointer ∧ exec .ret s = .fault .illegalStackPointer

/-- Derived from R28, an inference of the spec: CALL at 32 and RET at 0 raise without writing, `sp` stays legal, a pop
keeps the entry's value, and an entry at or above the top is never read: changing it changes no outcome but that entry.
-/
def Obligations.StackDisciplineHolds : Prop :=
  (∀ (s : State) (nnn : Addr), s.sp = 32 → exec (.call nnn) s = .next { s with status := .halted .stackOverflow }) ∧
  (∀ s : State, s.sp = 0 → exec .ret s = .next { s with status := .halted .stackUnderflow }) ∧
  (∀ (i : Instr) (s t : State), LegalSp s.sp → exec i s = .next t → LegalSp t.sp) ∧
  (∀ s t : State, exec .ret s = .next t → t.stack = s.stack) ∧
  (∀ (i : Instr) (s : State) (j : Fin 16) (v : Word), LegalSp s.sp → s.sp.toNat ≤ 2 * j.val →
    ∃ t u, exec i s = .next t ∧ exec i { s with stack := s.stack.set j v } = .next u ∧
      u = { t with stack := u.stack } ∧ ∀ m : Fin 16, m ≠ j → u.stack[m] = t.stack[m])

/-- Derived from R22, an inference of the spec: ANNN is the only instruction that writes `I`, DXYN the only one that
reads it, and from reset `I` stays in 0x000 to 0xFFF. -/
def Obligations.IndexRegisterWrittenByOneReadByOne : Prop :=
  (∀ (i : Instr) (s t : State), exec i s = .next t →
    t.I = match i with | .ldI nnn => nnn.setWidth 16 | _ => s.I) ∧
  (∀ (i : Instr) (s : State) (v : Word), (∀ x y n, i ≠ .drw x y n) →
    mapNext (fun t => { t with I := 0 }) (exec i { s with I := v }) =
      mapNext (fun t => { t with I := 0 }) (exec i s)) ∧
  (∀ s t : State, s.I.toNat ≤ 0xFFF → step s = .next t → t.I.toNat ≤ 0xFFF) ∧
  State.reset.I = 0

/-- R20: VF is written as a side effect by 8XY4, 8XY5, 8XY6, 8XY7, 8XYE and DXYN, with 0 or 1, and by no other instruction
unless it names VF as its destination; no instruction reads VF except as an operand; after reset it is 0. -/
def Obligations.FlagRegisterWritersAndReaders : Prop :=
  (∀ (i : Instr) (s t : State), exec i s = .next t → writesFlag i = false → destReg i ≠ some 15 →
    t.V[15] = s.V[15]) ∧
  (∀ (i : Instr) (s t : State), s.status = .running → exec i s = .next t → t.status = .running →
    writesFlag i = true → t.V[15] = 0 ∨ t.V[15] = 1) ∧
  (∀ (i : Instr) (s : State) (v : Byte), (15 : Reg) ∉ readRegs i →
    mapNext (fun t => { t with V := t.V.set 15 0 }) (exec i { s with V := s.V.set 15 v }) =
      mapNext (fun t => { t with V := t.V.set 15 0 }) (exec i s)) ∧
  State.reset.V[15] = 0

/-- Derived from the columns "written by" of spec/10_state.md: when an instruction gives a next state, each field is
unchanged unless the instruction is one the table names for it; every byte of memory reads as before; `status` changes
only from an error. -/
def Obligations.OnlyTheNamedInstructionsWriteEachField : Prop :=
  ∀ (i : Instr) (s t : State), exec i s = .next t →
    (∀ j : Reg, destReg i ≠ some j → (writesFlag i = true → j ≠ 15) → t.V[j] = s.V[j]) ∧
    ((∀ nnn, i ≠ .ldI nnn) → t.I = s.I) ∧
    ((∀ nnn, i ≠ .call nnn) → i ≠ .ret → t.sp = s.sp) ∧
    ((∀ nnn, i ≠ .call nnn) → t.stack = s.stack) ∧
    (∀ a, t.mem.read a = s.mem.read a) ∧
    (i ≠ .cls → (∀ x y n, i ≠ .drw x y n) → t.fb = s.fb) ∧
    (t.status ≠ s.status → t = { s with status := t.status })

/-- Derived from the column "read by" of spec/10_state.md for `V`: a register that an instruction does not read has no
influence on anything but itself. -/
def Obligations.UnreadRegistersHaveNoInfluence : Prop :=
  ∀ (i : Instr) (s : State) (j : Reg) (v : Byte), j ∉ readRegs i →
    mapNext (fun t => { t with V := t.V.set j 0 }) (exec i { s with V := s.V.set j v }) =
      mapNext (fun t => { t with V := t.V.set j 0 }) (exec i s)

/-- Derived from R46: no Step changes any byte of memory. -/
def Obligations.NoStepWritesMemory : Prop :=
  ∀ s t : State, step s = .next t → ∀ a, t.mem.read a = s.mem.read a

/-- Derived from R49, an inference of the spec: the font bytes stay equal to FONT, through every request of the host;
and at creation they are. It depends on the parameter FONT by name only. -/
def Obligations.FontStaysIntact : Prop :=
  FontIntact State.reset ∧
  ∀ (r : Request) (s : State) (p : Reply), FontIntact s → serve r s = .next p → FontIntact p.state

/-! ### Control flow (spec/41_control_flow.md) -/

/-- R85: JP nnn. -/
def Obligations.JumpSetsPc : Prop :=
  Selects 0xF000 0x1000 (fun f => .jp f.nnn) ∧
  ∀ (nnn : Addr) (s : State), exec (.jp nnn) s = .next { s with pc := nnn.setWidth 16 }

/-- Derived from R86: JP V0, nnn: the exact sum, never reduced. The last clause, that the next Step's fetch reports a target
above 0xFFE, rests on R73 with the spec's own decisions D7 and D19, and the address kept in `status` on log entry 2. -/
def Obligations.IndexedJumpAddsV0 : Prop :=
  Selects 0xF000 0xB000 (fun f => .jpV0 f.nnn) ∧
  ∀ (nnn : Addr) (s : State), ∃ t, exec (.jpV0 nnn) s = .next t ∧ t = { s with pc := t.pc } ∧
    t.pc.toNat = nnn.toNat + s.V[0].toNat ∧ t.pc.toNat ≤ 0x10FE ∧
    (t.status = .running → 0xFFE < t.pc.toNat →
      step t = .next { t with status := .halted (.addressOutOfRange t.pc) })

/-- Derived from R87, the spec's own decisions D4 and D5: CALL nnn pushes the address after itself; on a full stack it
raises before any write. -/
def Obligations.CallPushesTheReturnAddress : Prop :=
  Selects 0xF000 0x2000 (fun f => .call f.nnn) ∧
  ∀ (nnn : Addr) (s : State),
    (∀ j : Fin 16, s.sp.toNat = 2 * j.val →
      exec (.call nnn) s = .next { s with
        stack := s.stack.set j s.pc, sp := s.sp + 2, pc := nnn.setWidth 16 }) ∧
    (s.sp = 32 → exec (.call nnn) s = .next { s with status := .halted .stackOverflow })

/-- Derived from R88, the spec's own decisions D4 and D6: RET pops the top entry, which keeps its value; on an empty
stack it raises before any write. -/
def Obligations.ReturnPopsTheTopEntry : Prop :=
  Selects 0xFFFF 0x00EE (fun _ => .ret) ∧
  ∀ s : State,
    (∀ j : Fin 16, s.sp.toNat = 2 * (j.val + 1) →
      exec .ret s = .next { s with sp := s.sp - 2, pc := s.stack[j] }) ∧
    (s.sp = 0 → exec .ret s = .next { s with status := .halted .stackUnderflow })

/-- Derived from R87 and R88 (source property S9 of spec/95_test_vectors.md): a call followed by a return restores `pc` to
the instruction after the call site, and `sp`; only the stale entry differs. `p` is wherever the return stands. -/
def Obligations.CallThenReturnRestoresPc : Prop :=
  ∀ (nnn : Addr) (s : State) (p : Word), LegalSp s.sp → s.sp.toNat < 32 →
    ∃ (t : State) (j : Fin 16), s.sp.toNat = 2 * j.val ∧ exec (.call nnn) s = .next t ∧
      exec .ret { t with pc := p } = .next { s with stack := s.stack.set j s.pc }

/-! ### Skips (spec/42_skip.md) -/

/-- R89 to R92: each skip advances `pc` by 2 more on its condition, and changes nothing else. -/
def Obligations.SkipsCompareAndAdvance : Prop :=
  Selects 0xF000 0x3000 (fun f => .seImm f.x f.kk) ∧ Selects 0xF000 0x4000 (fun f => .sneImm f.x f.kk) ∧
  Selects 0xF000 0x5000 (fun f => .seReg f.x f.y) ∧ Selects 0xF000 0x9000 (fun f => .sneReg f.x f.y) ∧
  ∀ (x y : Reg) (kk : Byte) (s : State),
    exec (.seImm x kk) s = .next (if s.V[x] = kk then { s with pc := s.pc + 2 } else s) ∧
    exec (.sneImm x kk) s = .next (if s.V[x] ≠ kk then { s with pc := s.pc + 2 } else s) ∧
    exec (.seReg x y) s = .next (if s.V[x] = s.V[y] then { s with pc := s.pc + 2 } else s) ∧
    exec (.sneReg x y) s = .next (if s.V[x] ≠ s.V[y] then { s with pc := s.pc + 2 } else s)

/-! ### Register load and ALU (spec/43_register_alu.md) -/

/-- R94 to R96: the two loads and the add immediate write one register and no flag. -/
def Obligations.LoadsAndAddImmediateWriteOneRegister : Prop :=
  Selects 0xF000 0x6000 (fun f => .ldImm f.x f.kk) ∧ Selects 0xF000 0x7000 (fun f => .addImm f.x f.kk) ∧
  Selects 0xF00F 0x8000 (fun f => .ldReg f.x f.y) ∧
  ∀ (x y : Reg) (kk : Byte) (s : State),
    exec (.ldImm x kk) s = .next { s with V := s.V.set x kk } ∧
    exec (.addImm x kk) s = .next { s with V := s.V.set x (s.V[x] + kk) } ∧
    exec (.ldReg x y) s = .next { s with V := s.V.set x s.V[y] }

/-- Derived from R97 to R99, which infer that no flag is written: the three bitwise instructions write one register. -/
def Obligations.LogicWritesOneRegisterAndNoFlag : Prop :=
  Selects 0xF00F 0x8001 (fun f => .or f.x f.y) ∧ Selects 0xF00F 0x8002 (fun f => .and f.x f.y) ∧
  Selects 0xF00F 0x8003 (fun f => .xor f.x f.y) ∧
  ∀ (x y : Reg) (s : State),
    exec (.or x y) s = .next { s with V := s.V.set x (s.V[x] ||| s.V[y]) } ∧
    exec (.and x y) s = .next { s with V := s.V.set x (s.V[x] &&& s.V[y]) } ∧
    exec (.xor x y) s = .next { s with V := s.V.set x (s.V[x] ^^^ s.V[y]) }

/-- R100: ADD Vx, Vy: VF is 1 iff `a + b > 255`, the result is `(a + b) mod 256`, and with `x = 15` the flag wins. -/
def Obligations.AddSetsCarry : Prop :=
  Selects 0xF00F 0x8004 (fun f => .addReg f.x f.y) ∧
  ∀ (x y : Reg) (s : State), ∃ t, exec (.addReg x y) s = .next t ∧ t = { s with V := t.V } ∧
    t.V[15] = (if s.V[x].toNat + s.V[y].toNat > 255 then 1 else 0) ∧
    (x ≠ 15 → t.V[x].toNat = (s.V[x].toNat + s.V[y].toNat) % 256) ∧
    (∀ j : Reg, j ≠ x → j ≠ 15 → t.V[j] = s.V[j])

/-- R101: SUB Vx, Vy: VF is 1 iff `V[x]` is strictly greater, the difference wraps modulo 256, and with `x = 15` the flag
wins. -/
def Obligations.SubtractSetsNotBorrow : Prop :=
  Selects 0xF00F 0x8005 (fun f => .sub f.x f.y) ∧
  ∀ (x y : Reg) (s : State), ∃ t, exec (.sub x y) s = .next t ∧ t = { s with V := t.V } ∧
    t.V[15] = (if s.V[x].toNat > s.V[y].toNat then 1 else 0) ∧
    (x ≠ 15 → (t.V[x].toNat : Int) = ((s.V[x].toNat : Int) - s.V[y].toNat) % 256) ∧
    (∀ j : Reg, j ≠ x → j ≠ 15 → t.V[j] = s.V[j])

/-- Derived from R103, the spec's own decision D10: SUBN Vx, Vy mirrors SUB. -/
def Obligations.ReverseSubtractMirrorsSubtract : Prop :=
  Selects 0xF00F 0x8007 (fun f => .subn f.x f.y) ∧
  ∀ (x y : Reg) (s : State), ∃ t, exec (.subn x y) s = .next t ∧ t = { s with V := t.V } ∧
    t.V[15] = (if s.V[y].toNat > s.V[x].toNat then 1 else 0) ∧
    (x ≠ 15 → (t.V[x].toNat : Int) = ((s.V[y].toNat : Int) - s.V[x].toNat) % 256) ∧
    (∀ j : Reg, j ≠ x → j ≠ 15 → t.V[j] = s.V[j])

/-- Derived from R102 and R104, the spec's own decision D11: SHR and SHL shift `V[x]` by one and leave the bit shifted
out in VF; with `x = 15` the flag wins. -/
def Obligations.ShiftsCaptureTheBitShiftedOut : Prop :=
  Selects 0xF00F 0x8006 (fun f => .shr f.x) ∧ Selects 0xF00F 0x800E (fun f => .shl f.x) ∧
  ∀ (x : Reg) (s : State),
    (∃ t, exec (.shr x) s = .next t ∧ t = { s with V := t.V } ∧ t.V[15].toNat = s.V[x].toNat % 2 ∧
      (x ≠ 15 → t.V[x].toNat = s.V[x].toNat / 2) ∧ (∀ j : Reg, j ≠ x → j ≠ 15 → t.V[j] = s.V[j])) ∧
    (∃ t, exec (.shl x) s = .next t ∧ t = { s with V := t.V } ∧ t.V[15].toNat = s.V[x].toNat / 128 ∧
      (x ≠ 15 → t.V[x].toNat = 2 * s.V[x].toNat % 256) ∧ (∀ j : Reg, j ≠ x → j ≠ 15 → t.V[j] = s.V[j]))

/-- Derived from R93, the spec's own decision D9: operands are read first, the result is written next and the flag
last. So with `x = 15` only the flag remains, and with `y = 15` the operand is VF's old value. -/
def Obligations.FlagIsWrittenLast : Prop :=
  ∀ (x y : Reg) (s : State),
    let resultThenFlag (result flag : Byte) : Host.Outcome State Fault Refusal :=
      .next { s with V := (s.V.set x result).set 15 flag }
    exec (.addReg x y) s =
      resultThenFlag (s.V[x] + s.V[y]) (if s.V[x].toNat + s.V[y].toNat > 255 then 1 else 0) ∧
    exec (.sub x y) s = resultThenFlag (s.V[x] - s.V[y]) (if s.V[x].toNat > s.V[y].toNat then 1 else 0) ∧
    exec (.shr x) s = resultThenFlag (s.V[x] >>> 1) (s.V[x] &&& 1) ∧
    exec (.subn x y) s = resultThenFlag (s.V[y] - s.V[x]) (if s.V[y].toNat > s.V[x].toNat then 1 else 0) ∧
    exec (.shl x) s = resultThenFlag (s.V[x] <<< 1) (s.V[x] >>> 7)

/-! ### Index register and display (spec/44_index_display.md) -/

/-- R105: LD I, nnn. -/
def Obligations.LoadIndexSetsI : Prop :=
  Selects 0xF000 0xA000 (fun f => .ldI f.nnn) ∧
  ∀ (nnn : Addr) (s : State), exec (.ldI nnn) s = .next { s with I := nnn.setWidth 16 }

/-- R106: CLS clears every scanline and writes nothing else. -/
def Obligations.ClearScreenZeroesEveryScanline : Prop :=
  Selects 0xFFFF 0x00E0 (fun _ => .cls) ∧
  ∀ s : State, ∃ t, exec .cls s = .next t ∧ t = { s with fb := t.fb } ∧ ∀ r : Fin 32, t.fb[r] = 0

/-- Derived from R108, the spec's own decisions D7 and D13: a draw whose sprite passes 0xFFF raises before it reads or
writes anything.
The address is kept in `status` by the model's inference, log entry 2. -/
def Obligations.DrawPastMemoryRaises : Prop :=
  ∀ (x y : Reg) (n : Fin 16) (s : State), 1 ≤ n.val → 0xFFF < s.I.toNat + n.val - 1 →
    exec (.drw x y n) s = .next { s with status := .halted (.addressOutOfRange s.I) }

/-- Derived from R115, the spec's own decision D12: a draw of no rows only clears VF, whatever `I`. -/
def Obligations.DrawOfNoRowsClearsFlag : Prop :=
  ∀ (x y : Reg) (s : State), exec (.drw x y 0) s = .next { s with V := s.V.set 15 0 }

/-- R111: bit 7 of the row's byte lands at column `V[x] mod 64`, each next bit one column to the right, wrapping past
column 63; every set bit lies inside the mask. R112's masked form then equals the plain XOR. -/
def Obligations.SpriteRowIsRotatedIntoPlace : Prop :=
  ∀ (b vx : Byte) (old : Scanline),
    let s := spriteBits b (originColumn vx)
    let m := rotl64 ((0xFF#8).setWidth 64) (originColumn vx)
    s = rotl64 ((rev8 b).setWidth 64) (vx.toNat % 64) ∧
    (∀ c : Fin 64, s.getLsbD c = true ↔ ∃ j < 8, (vx.toNat + j) % 64 = c.val ∧ b.getLsbD (7 - j) = true) ∧
    s &&& ~~~m = 0 ∧ (old &&& ~~~m) ||| ((old ^^^ s) &&& m) = old ^^^ s

/-- Derived from R107 and R109 to R115: a draw inside memory XORs, pixel by pixel, the sprite of R109 to R111 onto the
framebuffer, and VF is 1 exactly when some pixel that was set is now clear; nothing else changes. At `x` or `y` = 15 the
coordinate is VF's old value by the spec's own decision D9, and `n = 0` draws no row by its decision D12. -/
def Obligations.DrawXorsTheSpritePixelByPixel : Prop :=
  Selects 0xF000 0xD000 (fun f => .drw f.x f.y f.n) ∧
  ∀ (x y : Reg) (n : Fin 16) (s : State), (1 ≤ n.val → s.I.toNat + n.val - 1 ≤ 0xFFF) →
    ∃ t, exec (.drw x y n) s = .next t ∧ t = { s with V := t.V, fb := t.fb } ∧
      (∀ (r : Fin 32) (c : Fin 64), pixel t.fb r c =
        (pixel s.fb r c ^^ spritePixel s.mem s.I.toNat n.val s.V[x] s.V[y] r c)) ∧
      (∀ j : Reg, j ≠ 15 → t.V[j] = s.V[j]) ∧
      (t.V[15] = 0 ∨ t.V[15] = 1) ∧
      (t.V[15] = 1 ↔ ∃ r c, pixel s.fb r c = true ∧ pixel t.fb r c = false)

/-- Derived from R107 to R114 (source property S6 of spec/95_test_vectors.md): drawing the same sprite twice at the
same place restores every pixel, and VF after the second draw is 1 exactly when the first draw set some pixel. `x` and
`y` are not VF, which the first draw overwrites. -/
def Obligations.DrawTwiceRestoresTheScreen : Prop :=
  ∀ (x y : Reg) (n : Fin 16) (s : State), x ≠ 15 → y ≠ 15 → (1 ≤ n.val → s.I.toNat + n.val - 1 ≤ 0xFFF) →
    ∃ t u, exec (.drw x y n) s = .next t ∧ exec (.drw x y n) t = .next u ∧ u.fb = s.fb ∧
      (u.V[15] = 1 ↔ ∃ r c, pixel s.fb r c = false ∧ pixel t.fb r c = true)

/-! ### The unimplemented instructions (spec/45_unimplemented.md) -/

/-- R129: each of the 13 raises `Unimplemented` whatever its operands: only `status` changes. -/
def Obligations.UnimplementedInstructionsOnlyHalt : Prop :=
  ∀ (x : Reg) (kk : Byte) (nnn : Addr) (s : State),
    let halted : Host.Outcome State Fault Refusal := .next { s with status := .halted .unimplemented }
    exec (.sys nnn) s = halted ∧ exec (.rnd x kk) s = halted ∧ exec (.skp x) s = halted ∧
    exec (.sknp x) s = halted ∧ exec (.ldVxDt x) s = halted ∧ exec (.ldVxK x) s = halted ∧
    exec (.ldDtVx x) s = halted ∧ exec (.ldStVx x) s = halted ∧ exec (.addIVx x) s = halted ∧
    exec (.ldFVx x) s = halted ∧ exec (.ldBVx x) s = halted ∧ exec (.storeRegs x) s = halted ∧
    exec (.loadRegs x) s = halted

/-! ### Reset and the host's ports (spec/70_reset_and_hazards.md, spec/60_exceptions.md) -/

/-- R147: Initialise gives every piece of state its value, whatever the state before, and the machine is created in that
state. The font area holds the parameter FONT, by name. -/
def Obligations.InitialiseSetsEveryPieceOfState : Prop :=
  ∀ s : State, initialise s = State.reset ∧
    (∀ x : Reg, (initialise s).V[x] = 0) ∧ (initialise s).I = 0 ∧ (initialise s).sp = 0 ∧
    (∀ j : Fin 16, (initialise s).stack[j] = 0) ∧ (∀ r : Fin 32, (initialise s).fb[r] = 0) ∧
    (∀ j < 80, some ((initialise s).mem.read j) = FONT[j]?) ∧
    (∀ a, 80 ≤ a → (initialise s).mem.read a = 0) ∧
    (initialise s).pc = 0x200 ∧ (initialise s).status = .running

/-- Derived from R148, the spec's own decision D16: a Load of no byte returns `InvalidProgram` and changes no state. -/
def Obligations.EmptyLoadChangesNothing : Prop :=
  ∀ s : State, loadPort [] s = .next ⟨.err .invalidProgram, s⟩

/-- R149: a Load of 1 to 3584 bytes, in any driver state, leaves the initialised state with the image at 0x200. -/
def Obligations.LoadInitialisesAndCopiesTheImage : Prop :=
  ∀ (image : List Byte) (s : State), 1 ≤ image.length → image.length ≤ 3584 →
    ∃ t, loadPort image s = .next ⟨.ok, t⟩ ∧ t = { State.reset with mem := t.mem } ∧
      (∀ j, (h : j < image.length) → t.mem.read (0x200 + j) = image[j]) ∧
      (∀ a, a < 0x200 ∨ 0x200 + image.length ≤ a → t.mem.read a = State.reset.mem.read a)

/-- Derived from R150, the spec's own decision D17: the model has no transition for a Load of more than 3584 bytes. -/
def Obligations.OverlongLoadIsRefused : Prop :=
  ∀ (image : List Byte) (s : State), 3584 < image.length → loadPort image s = .refused .imageTooLong

/-- Derived from R143, the spec's own decisions D14 and D15: Resume returns a driver halted by `Unimplemented` to
`Running` and changes nothing else; a driver halted by any other error leaves that state only through a successful
Load, and executes nothing. -/
def Obligations.ResumeOnlyFromUnimplemented : Prop :=
  ∀ s : State,
    (s.status = .running → resumePort s = .next ⟨.ok, s⟩) ∧
    (s.status = .halted .unimplemented → resumePort s = .next ⟨.ok, { s with status := .running }⟩) ∧
    (∀ k, k ≠ .unimplemented → s.status = .halted k →
      resumePort s = .next ⟨.err (.ofStep k), s⟩ ∧ step s = .next s ∧
      ∀ (r : Request) (p : Reply), serve r s = .next p → p.state.status ≠ .halted k →
        ∃ image, r = .load image ∧ p.response = .ok)

/-- R34: the Framebuffer read answers the 32 scanlines and changes no state. -/
def Obligations.FramebufferReadChangesNothing : Prop :=
  ∀ s : State, serve .framebuffer s = .next ⟨.scanlines s.fb, s⟩

/-- Derived from R84 and R72: because a halted driver stays as it is, the end state of a run of `k` Steps is the state
after `k` Steps of the machine, whether or not an error ends the run first. -/
def Obligations.EndOfRunIsTheStateAfterItsSteps : Prop :=
  ∀ (k : Nat) (s : State), endState k s = Sys2Proof.core.run k s
end

