-- ==== Sys2Proof/Laws/Decode.lean ====
section
/-! SUPPORT. The fields of the words the encoder writes (R55), and what masking such a word leaves (R63). -/

namespace Sys2Proof

/-! ### Cutting a field out of a concatenation -/

theorem extract_nibble3 (c x y n : BitVec 4) : BitVec.extractLsb' 12 4 (c ++ x ++ y ++ n) = c := by
  ext i hi; simp only [BitVec.getElem_extractLsb', BitVec.getLsbD_append]; interval_cases i <;> simp

theorem extract_nibble2 (c x y n : BitVec 4) : BitVec.extractLsb' 8 4 (c ++ x ++ y ++ n) = x := by
  ext i hi; simp only [BitVec.getElem_extractLsb', BitVec.getLsbD_append]; interval_cases i <;> simp

theorem extract_nibble1 (c x y n : BitVec 4) : BitVec.extractLsb' 4 4 (c ++ x ++ y ++ n) = y := by
  ext i hi; simp only [BitVec.getElem_extractLsb', BitVec.getLsbD_append]; interval_cases i <;> simp

theorem extract_nibble0 (c x y n : BitVec 4) : BitVec.extractLsb' 0 4 (c ++ x ++ y ++ n) = n := by
  ext i hi; simp only [BitVec.getElem_extractLsb', BitVec.getLsbD_append]; interval_cases i <;> simp

theorem extract_cls_kk (c x : BitVec 4) (k : Byte) : BitVec.extractLsb' 12 4 (c ++ x ++ k) = c := by
  ext i hi; simp only [BitVec.getElem_extractLsb', BitVec.getLsbD_append]; interval_cases i <;> simp

theorem extract_x_kk (c x : BitVec 4) (k : Byte) : BitVec.extractLsb' 8 4 (c ++ x ++ k) = x := by
  ext i hi; simp only [BitVec.getElem_extractLsb', BitVec.getLsbD_append]; interval_cases i <;> simp

theorem extract_kk (c x : BitVec 4) (k : Byte) : BitVec.extractLsb' 0 8 (c ++ x ++ k) = k := by
  ext i hi; simp only [BitVec.getElem_extractLsb', BitVec.getLsbD_append]; interval_cases i <;> simp

theorem extract_cls_nnn (c : BitVec 4) (a : Addr) : BitVec.extractLsb' 12 4 (c ++ a) = c := by
  ext i hi; simp only [BitVec.getElem_extractLsb', BitVec.getLsbD_append]; interval_cases i <;> simp

theorem extract_nnn (c : BitVec 4) (a : Addr) : BitVec.extractLsb' 0 12 (c ++ a) = a := by
  ext i hi; simp only [BitVec.getElem_extractLsb', BitVec.getLsbD_append]; interval_cases i <;> simp

/-! ### The field record of an encoded word (R55) -/

variable (c : BitVec 4) (x y : Reg) (n : Fin 16) (kk : Byte) (nnn : Addr)

@[simp] theorem fieldsOf_wordXYN_cls : (fieldsOf (wordXYN c x y n)).cls = c := extract_nibble3 _ _ _ _

@[simp] theorem fieldsOf_wordXYN_x : (fieldsOf (wordXYN c x y n)).x = x :=
  congrArg BitVec.toFin (extract_nibble2 c (.ofFin (w := 4) x) (.ofFin (w := 4) y) (.ofFin (w := 4) n))

@[simp] theorem fieldsOf_wordXYN_y : (fieldsOf (wordXYN c x y n)).y = y :=
  congrArg BitVec.toFin (extract_nibble1 c (.ofFin (w := 4) x) (.ofFin (w := 4) y) (.ofFin (w := 4) n))

@[simp] theorem fieldsOf_wordXYN_n : (fieldsOf (wordXYN c x y n)).n = n :=
  congrArg BitVec.toFin (extract_nibble0 c (.ofFin (w := 4) x) (.ofFin (w := 4) y) (.ofFin (w := 4) n))

@[simp] theorem fieldsOf_wordXKK_cls : (fieldsOf (wordXKK c x kk)).cls = c := extract_cls_kk _ _ _

@[simp] theorem fieldsOf_wordXKK_x : (fieldsOf (wordXKK c x kk)).x = x :=
  congrArg BitVec.toFin (extract_x_kk c (.ofFin (w := 4) x) kk)

@[simp] theorem fieldsOf_wordXKK_kk : (fieldsOf (wordXKK c x kk)).kk = kk := extract_kk _ _ _

@[simp] theorem fieldsOf_wordNNN_cls : (fieldsOf (wordNNN c nnn)).cls = c := extract_cls_nnn _ _

@[simp] theorem fieldsOf_wordNNN_nnn : (fieldsOf (wordNNN c nnn)).nnn = nnn := extract_nnn _ _

/-! ### Masking an encoded word with a mask of R63 -/

theorem and_append3 {p q r : Nat} (a a' : BitVec p) (b b' : BitVec q) (d d' : BitVec r) :
    (a ++ b ++ d) &&& (a' ++ b' ++ d') = (a &&& a') ++ (b &&& b') ++ (d &&& d') := by
  simp only [BitVec.and_append]

theorem and_append4 {p q r u : Nat} (a a' : BitVec p) (b b' : BitVec q) (d d' : BitVec r) (e e' : BitVec u) :
    (a ++ b ++ d ++ e) &&& (a' ++ b' ++ d' ++ e') = (a &&& a') ++ (b &&& b') ++ (d &&& d') ++ (e &&& e') := by
  simp only [BitVec.and_append]

theorem and_all4 (v : BitVec 4) : v &&& 0xF#4 = v := BitVec.and_allOnes

theorem and_all8 (v : BitVec 8) : v &&& 0xFF#8 = v := BitVec.and_allOnes

theorem wordNNN_and_F000 : wordNNN c nnn &&& 0xF000#16 = c ++ 0#12 := by
  have h : (c ++ nnn) &&& (0xF#4 ++ 0#12) = (c &&& 0xF#4) ++ (nnn &&& 0#12) := BitVec.and_append
  rw [and_all4, BitVec.and_zero] at h
  exact h

theorem wordXKK_and_F000 : wordXKK c x kk &&& 0xF000#16 = c ++ 0#12 := by
  have h := and_append3 c 0xF#4 (BitVec.ofFin (w := 4) x) 0#4 kk 0#8
  have zeros : ∀ c : BitVec 4, c ++ 0#4 ++ 0#8 = c ++ 0#12 := by decide
  rw [and_all4, BitVec.and_zero, BitVec.and_zero] at h
  exact h.trans (zeros c)

theorem wordXKK_and_F0FF : wordXKK c x kk &&& 0xF0FF#16 = c ++ 0#4 ++ kk := by
  have h := and_append3 c 0xF#4 (BitVec.ofFin (w := 4) x) 0#4 kk 0xFF#8
  rw [and_all4, and_all8, BitVec.and_zero] at h
  exact h

theorem wordXYN_and_F000 : wordXYN c x y n &&& 0xF000#16 = c ++ 0#12 := by
  have h := and_append4 c 0xF#4 (BitVec.ofFin (w := 4) x) 0#4 (BitVec.ofFin (w := 4) y) 0#4
    (BitVec.ofFin (w := 4) n) 0#4
  have zeros : ∀ c : BitVec 4, c ++ 0#4 ++ 0#4 ++ 0#4 = c ++ 0#12 := by decide
  rw [and_all4, BitVec.and_zero, BitVec.and_zero, BitVec.and_zero] at h
  exact h.trans (zeros c)

theorem wordXYN_and_F00F : wordXYN c x y n &&& 0xF00F#16 = c ++ 0#4 ++ 0#4 ++ BitVec.ofFin (w := 4) n := by
  have h := and_append4 c 0xF#4 (BitVec.ofFin (w := 4) x) 0#4 (BitVec.ofFin (w := 4) y) 0#4
    (BitVec.ofFin (w := 4) n) 0xF#4
  rw [and_all4, and_all4, BitVec.and_zero, BitVec.and_zero] at h
  exact h

/-! ### The decoder's one rejection -/

/-- A word is never rejected as truncated: only a byte sequence can be too short (R56, R66). -/
theorem decode_ne_truncated (w : Word) : decode w ≠ .error .truncated := by
  have h0 : ∀ w f, selectClass0 w f ≠ .error .truncated := by
    intro w f; unfold selectClass0; split <;> (try split) <;> simp
  have h8 : ∀ f, selectClass8 f ≠ .error .truncated := by
    intro f; unfold selectClass8; split <;> simp
  have hE : ∀ f, selectClassE f ≠ .error .truncated := by
    intro f; unfold selectClassE; split <;> (try split) <;> simp
  have hF : ∀ f, selectClassF f ≠ .error .truncated := by
    intro f; unfold selectClassF; repeat (first | split | simp)
  unfold decode
  simp only
  split <;> first | exact h0 _ _ | exact h8 _ | exact hE _ | exact hF _ | simp

end Sys2Proof
end

