-- ==== Sys2Proof/Laws/State.lean ====
section
/-! SUPPORT. One lemma per field per update of State, so that no proof unfolds a record update. -/

namespace Sys2Proof.Machine

variable (s : State)

/-! ### setV -/

@[simp] theorem setV_V (x : Reg) (v : Byte) : (setV s x v).V = s.V.set x v := rfl
@[simp] theorem setV_I (x : Reg) (v : Byte) : (setV s x v).I = s.I := rfl
@[simp] theorem setV_pc (x : Reg) (v : Byte) : (setV s x v).pc = s.pc := rfl
@[simp] theorem setV_sp (x : Reg) (v : Byte) : (setV s x v).sp = s.sp := rfl
@[simp] theorem setV_stack (x : Reg) (v : Byte) : (setV s x v).stack = s.stack := rfl
@[simp] theorem setV_mem (x : Reg) (v : Byte) : (setV s x v).mem = s.mem := rfl
@[simp] theorem setV_fb (x : Reg) (v : Byte) : (setV s x v).fb = s.fb := rfl
@[simp] theorem setV_status (x : Reg) (v : Byte) : (setV s x v).status = s.status := rfl

/-! ### setI -/

@[simp] theorem setI_V (v : Word) : (setI s v).V = s.V := rfl
@[simp] theorem setI_I (v : Word) : (setI s v).I = v := rfl
@[simp] theorem setI_pc (v : Word) : (setI s v).pc = s.pc := rfl
@[simp] theorem setI_sp (v : Word) : (setI s v).sp = s.sp := rfl
@[simp] theorem setI_stack (v : Word) : (setI s v).stack = s.stack := rfl
@[simp] theorem setI_mem (v : Word) : (setI s v).mem = s.mem := rfl
@[simp] theorem setI_fb (v : Word) : (setI s v).fb = s.fb := rfl
@[simp] theorem setI_status (v : Word) : (setI s v).status = s.status := rfl

/-! ### setPc -/

@[simp] theorem setPc_V (v : Word) : (setPc s v).V = s.V := rfl
@[simp] theorem setPc_I (v : Word) : (setPc s v).I = s.I := rfl
@[simp] theorem setPc_pc (v : Word) : (setPc s v).pc = v := rfl
@[simp] theorem setPc_sp (v : Word) : (setPc s v).sp = s.sp := rfl
@[simp] theorem setPc_stack (v : Word) : (setPc s v).stack = s.stack := rfl
@[simp] theorem setPc_mem (v : Word) : (setPc s v).mem = s.mem := rfl
@[simp] theorem setPc_fb (v : Word) : (setPc s v).fb = s.fb := rfl
@[simp] theorem setPc_status (v : Word) : (setPc s v).status = s.status := rfl

/-! ### setFb -/

@[simp] theorem setFb_V (rows : Vector Scanline 32) : (setFb s rows).V = s.V := rfl
@[simp] theorem setFb_I (rows : Vector Scanline 32) : (setFb s rows).I = s.I := rfl
@[simp] theorem setFb_pc (rows : Vector Scanline 32) : (setFb s rows).pc = s.pc := rfl
@[simp] theorem setFb_sp (rows : Vector Scanline 32) : (setFb s rows).sp = s.sp := rfl
@[simp] theorem setFb_stack (rows : Vector Scanline 32) : (setFb s rows).stack = s.stack := rfl
@[simp] theorem setFb_mem (rows : Vector Scanline 32) : (setFb s rows).mem = s.mem := rfl
@[simp] theorem setFb_fb (rows : Vector Scanline 32) : (setFb s rows).fb = rows := rfl
@[simp] theorem setFb_status (rows : Vector Scanline 32) : (setFb s rows).status = s.status := rfl

/-! ### setStatus -/

@[simp] theorem setStatus_V (st : Status) : (setStatus s st).V = s.V := rfl
@[simp] theorem setStatus_I (st : Status) : (setStatus s st).I = s.I := rfl
@[simp] theorem setStatus_pc (st : Status) : (setStatus s st).pc = s.pc := rfl
@[simp] theorem setStatus_sp (st : Status) : (setStatus s st).sp = s.sp := rfl
@[simp] theorem setStatus_stack (st : Status) : (setStatus s st).stack = s.stack := rfl
@[simp] theorem setStatus_mem (st : Status) : (setStatus s st).mem = s.mem := rfl
@[simp] theorem setStatus_fb (st : Status) : (setStatus s st).fb = s.fb := rfl
@[simp] theorem setStatus_status (st : Status) : (setStatus s st).status = st := rfl

/-! ### setMem -/

@[simp] theorem setMem_V (m : Memory) : (setMem s m).V = s.V := rfl
@[simp] theorem setMem_I (m : Memory) : (setMem s m).I = s.I := rfl
@[simp] theorem setMem_pc (m : Memory) : (setMem s m).pc = s.pc := rfl
@[simp] theorem setMem_sp (m : Memory) : (setMem s m).sp = s.sp := rfl
@[simp] theorem setMem_stack (m : Memory) : (setMem s m).stack = s.stack := rfl
@[simp] theorem setMem_mem (m : Memory) : (setMem s m).mem = m := rfl
@[simp] theorem setMem_fb (m : Memory) : (setMem s m).fb = s.fb := rfl
@[simp] theorem setMem_status (m : Memory) : (setMem s m).status = s.status := rfl

/-! ### advancePc -/

@[simp] theorem advancePc_V : (advancePc s).V = s.V := rfl
@[simp] theorem advancePc_I : (advancePc s).I = s.I := rfl
@[simp] theorem advancePc_pc : (advancePc s).pc = s.pc + 2 := rfl
@[simp] theorem advancePc_sp : (advancePc s).sp = s.sp := rfl
@[simp] theorem advancePc_stack : (advancePc s).stack = s.stack := rfl
@[simp] theorem advancePc_mem : (advancePc s).mem = s.mem := rfl
@[simp] theorem advancePc_fb : (advancePc s).fb = s.fb := rfl
@[simp] theorem advancePc_status : (advancePc s).status = s.status := rfl

/-! ### pushStack -/

@[simp] theorem pushStack_V (v : Word) : (pushStack s v).V = s.V := rfl
@[simp] theorem pushStack_I (v : Word) : (pushStack s v).I = s.I := rfl
@[simp] theorem pushStack_pc (v : Word) : (pushStack s v).pc = s.pc := rfl
@[simp] theorem pushStack_sp (v : Word) : (pushStack s v).sp = s.sp + 2 := rfl
@[simp] theorem pushStack_stack (v : Word) : (pushStack s v).stack = s.stack.set (stackIndex s.sp) v := rfl
@[simp] theorem pushStack_mem (v : Word) : (pushStack s v).mem = s.mem := rfl
@[simp] theorem pushStack_fb (v : Word) : (pushStack s v).fb = s.fb := rfl
@[simp] theorem pushStack_status (v : Word) : (pushStack s v).status = s.status := rfl

/-! ### popStack -/

@[simp] theorem popStack_V : (popStack s).V = s.V := rfl
@[simp] theorem popStack_I : (popStack s).I = s.I := rfl
@[simp] theorem popStack_pc : (popStack s).pc = s.pc := rfl
@[simp] theorem popStack_sp : (popStack s).sp = s.sp - 2 := rfl
@[simp] theorem popStack_stack : (popStack s).stack = s.stack := rfl
@[simp] theorem popStack_mem : (popStack s).mem = s.mem := rfl
@[simp] theorem popStack_fb : (popStack s).fb = s.fb := rfl
@[simp] theorem popStack_status : (popStack s).status = s.status := rfl

/-! ### raise -/

@[simp] theorem raise_V (k : StepError) : (raise k s).V = s.V := rfl
@[simp] theorem raise_I (k : StepError) : (raise k s).I = s.I := rfl
@[simp] theorem raise_pc (k : StepError) : (raise k s).pc = s.pc := rfl
@[simp] theorem raise_sp (k : StepError) : (raise k s).sp = s.sp := rfl
@[simp] theorem raise_stack (k : StepError) : (raise k s).stack = s.stack := rfl
@[simp] theorem raise_mem (k : StepError) : (raise k s).mem = s.mem := rfl
@[simp] theorem raise_fb (k : StepError) : (raise k s).fb = s.fb := rfl
@[simp] theorem raise_status (k : StepError) : (raise k s).status = .halted k := rfl

/-! ### setFlag -/

@[simp] theorem setFlag_V (f : Bool) : (setFlag s f).V = s.V.set 15 (flagByte f) := rfl
@[simp] theorem setFlag_I (f : Bool) : (setFlag s f).I = s.I := rfl
@[simp] theorem setFlag_pc (f : Bool) : (setFlag s f).pc = s.pc := rfl
@[simp] theorem setFlag_sp (f : Bool) : (setFlag s f).sp = s.sp := rfl
@[simp] theorem setFlag_stack (f : Bool) : (setFlag s f).stack = s.stack := rfl
@[simp] theorem setFlag_mem (f : Bool) : (setFlag s f).mem = s.mem := rfl
@[simp] theorem setFlag_fb (f : Bool) : (setFlag s f).fb = s.fb := rfl
@[simp] theorem setFlag_status (f : Bool) : (setFlag s f).status = s.status := rfl

/-! ### Reset (R38) -/

@[simp] theorem reset_V : State.reset.V = Vector.replicate 16 0 := rfl
@[simp] theorem reset_I : State.reset.I = 0 := rfl
@[simp] theorem reset_pc : State.reset.pc = 0x200 := rfl
@[simp] theorem reset_sp : State.reset.sp = 0 := rfl
@[simp] theorem reset_stack : State.reset.stack = Vector.replicate 16 0 := rfl
@[simp] theorem reset_mem : State.reset.mem = [] := rfl
@[simp] theorem reset_fb : State.reset.fb = Vector.replicate 32 0 := rfl
@[simp] theorem reset_status : State.reset.status = .running := rfl

/-! ### Reading a register after writing one (R18: the registers are independent) -/

@[simp] theorem getV_setV_same (x : Reg) (v : Byte) : getV (setV s x v) x = v := by simp [getV]

theorem getV_setV_ne (x y : Reg) (v : Byte) (h : y ≠ x) : getV (setV s x v) y = getV s y := by
  have h' : x.val ≠ y.val := fun e => h (Fin.ext e.symm)
  simp [getV, h']

end Sys2Proof.Machine
end

