-- ==== Sys2Proof/Laws/Memory.lean ====
section
/-! SUPPORT. The laws of memory: reading after writing, and that every operation keeps the canonical form. -/

namespace Sys2Proof.Machine

@[simp] theorem Memory.read_nil (a : Nat) : Memory.read [] a = Memory.unlisted a := rfl

theorem Memory.read_cons (b : Nat) (v : Byte) (m : Memory) (a : Nat) :
    Memory.read ((b, v) :: m) a = if a = b then v else Memory.read m a := rfl

/-- An address that no entry lists reads as after initialisation. -/
theorem Memory.read_of_not_listed (m : Memory) (a : Nat) (h : ∀ c ∈ m, c.1 ≠ a) :
    Memory.read m a = Memory.unlisted a := by
  induction m with
  | nil => rfl
  | cons c m ih =>
    obtain ⟨b, v⟩ := c
    have hb : a ≠ b := fun e => h (b, v) (by simp) e.symm
    rw [Memory.read_cons, if_neg hb]
    exact ih fun c hc => h c (by simp [hc])

/-- Every entry after one at `b` lies above it. -/
theorem Memory.lt_of_wf_cons {b : Nat} {v : Byte} {m : Memory} (h : Memory.wf ((b, v) :: m)) :
    ∀ c ∈ m, b < c.1 :=
  (List.pairwise_cons.mp h.1).1

theorem Memory.wf_tail {c : Host.Cell} {m : Memory} (h : Memory.wf (c :: m)) : Memory.wf m :=
  ⟨(List.pairwise_cons.mp h.1).2, fun d hd => h.2 d (by simp [hd])⟩

theorem Memory.wf_nil : Memory.wf [] := ⟨List.Pairwise.nil, by simp⟩

theorem Memory.read_write_same (m : Memory) (hm : m.wf) (a : Nat) (v : Byte) : (m.write a v).read a = v := by
  induction m with
  | nil => by_cases h : v = Memory.unlisted a <;> simp [Memory.write, Memory.read, h]
  | cons c m ih =>
    obtain ⟨b, w⟩ := c
    have above := Memory.lt_of_wf_cons hm
    simp only [Memory.write]
    split
    next hab =>
      split
      next hv =>
        rw [Memory.read_of_not_listed _ _ (fun c hc => ?_), hv]
        rcases List.mem_cons.mp hc with rfl | hc
        · exact Nat.ne_of_gt hab
        · exact Nat.ne_of_gt (Nat.lt_trans hab (above c hc))
      next => simp [Memory.read_cons]
    next =>
      split
      next hab =>
        subst hab
        split
        next hv => rw [Memory.read_of_not_listed _ _ (fun c hc => Nat.ne_of_gt (above c hc)), hv]
        next => simp [Memory.read_cons]
      next hne =>
        rw [Memory.read_cons, if_neg hne]
        exact ih (Memory.wf_tail hm)

theorem Memory.read_write_ne (m : Memory) (a b : Nat) (v : Byte) (h : b ≠ a) :
    (m.write a v).read b = m.read b := by
  induction m with
  | nil => by_cases hv : v = Memory.unlisted a <;> simp [Memory.write, Memory.read, hv, h]
  | cons c m ih =>
    obtain ⟨d, w⟩ := c
    simp only [Memory.write]
    split
    next => split <;> simp [Memory.read_cons, h]
    next =>
      split
      next hd => subst hd; split <;> simp [Memory.read_cons, h]
      next => simp only [Memory.read_cons, ih]

/-- The addresses listed after a write are among those listed before and the one written. -/
theorem Memory.mem_write {m : Memory} {a : Nat} {v : Byte} {c : Host.Cell} (h : c ∈ m.write a v) :
    c ∈ m ∨ (c = (a, v) ∧ v ≠ Memory.unlisted a) := by
  induction m with
  | nil =>
    by_cases hv : v = Memory.unlisted a
    · simp [Memory.write, hv] at h
    · simp only [Memory.write, if_neg hv, List.mem_singleton] at h
      exact .inr ⟨h, hv⟩
  | cons d m ih =>
    obtain ⟨b, w⟩ := d
    simp only [Memory.write] at h
    split at h
    next =>
      split at h
      next => exact .inl h
      next hv =>
        rcases List.mem_cons.mp h with rfl | h
        · exact .inr ⟨rfl, hv⟩
        · exact .inl h
    next =>
      split at h
      next =>
        split at h
        next => exact .inl (List.mem_cons_of_mem _ h)
        next hv =>
          rcases List.mem_cons.mp h with rfl | h
          · exact .inr ⟨rfl, hv⟩
          · exact .inl (List.mem_cons_of_mem _ h)
      next =>
        rcases List.mem_cons.mp h with rfl | h
        · exact .inl (by simp)
        · rcases ih h with h | h
          · exact .inl (List.mem_cons_of_mem _ h)
          · exact .inr h

/-- A write inside the address space keeps the canonical form. -/
theorem Memory.wf_write {m : Memory} (hm : m.wf) {a : Nat} (ha : a ≤ 0xFFF) (v : Byte) : (m.write a v).wf := by
  refine ⟨?_, fun c hc => ?_⟩
  · induction m with
    | nil => by_cases hv : v = Memory.unlisted a <;> simp [Memory.write, hv]
    | cons d m ih =>
      obtain ⟨b, w⟩ := d
      have above := Memory.lt_of_wf_cons hm
      have tail := (Memory.wf_tail hm).1
      simp only [Memory.write]
      split
      next hab =>
        split
        next => exact hm.1
        next =>
          refine List.pairwise_cons.mpr ⟨fun c hc => ?_, hm.1⟩
          rcases List.mem_cons.mp hc with rfl | hc
          · exact hab
          · exact Nat.lt_trans hab (above c hc)
      next hba =>
        split
        next hab =>
          subst hab
          split
          next => exact tail
          next => exact List.pairwise_cons.mpr ⟨above, tail⟩
        next hne =>
          refine List.pairwise_cons.mpr ⟨fun c hc => ?_, ih (Memory.wf_tail hm)⟩
          rcases Memory.mem_write hc with hc | ⟨rfl, -⟩
          · exact above c hc
          · exact Nat.lt_of_le_of_ne (Nat.le_of_not_lt hba) (Ne.symm hne)
  · rcases Memory.mem_write hc with hc | ⟨rfl, hv⟩
    · exact hm.2 c hc
    · exact ⟨ha, hv⟩

theorem Memory.wf_writeBytes (bs : List Byte) {m : Memory} (hm : m.wf) (a : Nat) (h : a + bs.length ≤ 0x1000) :
    (m.writeBytes a bs).wf := by
  induction bs generalizing m a with
  | nil => exact hm
  | cons b bs ih =>
    simp only [List.length_cons] at h
    exact ih (Memory.wf_write hm (by omega) b) (a + 1) (by omega)

/-- Bytes outside the range a run of bytes is stored to read as before. -/
theorem Memory.read_writeBytes_outside (bs : List Byte) (m : Memory) (a b : Nat)
    (h : b < a ∨ a + bs.length ≤ b) : (m.writeBytes a bs).read b = m.read b := by
  induction bs generalizing m a with
  | nil => rfl
  | cons v bs ih =>
    simp only [List.length_cons] at h
    simp only [Memory.writeBytes]
    rw [ih _ _ (by omega), Memory.read_write_ne _ _ _ _ (by omega)]

/-- Each stored byte reads back. -/
theorem Memory.read_writeBytes_inside (bs : List Byte) {m : Memory} (hm : m.wf) (a : Nat)
    (h : a + bs.length ≤ 0x1000) (j : Nat) (hj : j < bs.length) : (m.writeBytes a bs).read (a + j) = bs[j] := by
  induction bs generalizing m a j with
  | nil => simp at hj
  | cons v bs ih =>
    simp only [List.length_cons] at h hj
    simp only [Memory.writeBytes]
    cases j with
    | zero =>
      rw [Memory.read_writeBytes_outside _ _ _ _ (by omega)]
      simpa using Memory.read_write_same m hm a v
    | succ j =>
      have := ih (Memory.wf_write hm (a := a) (by omega) v) (a + 1) (by omega) j (by omega)
      simpa [Nat.add_assoc, Nat.add_comm 1 j] using this

/-- Above the font an unlisted address reads as zero (R38). -/
theorem Memory.unlisted_above_font (a : Nat) (h : 80 ≤ a) : Memory.unlisted a = 0 := by
  have : FONT.length ≤ a := h
  simp [Memory.unlisted, this]

end Sys2Proof.Machine
end

