-- ==== Sys2Proof/Laws/Ops.lean ====
section
/-! SUPPORT. What the shared operations do: the fetch, the stack pointer, errors and resuming, and the four cases of a
Step. -/

namespace Sys2Proof.Machine

/-! ### Fetch and Step (R72 to R78) -/

theorem fetch_of_le {s : State} (h : s.pc.toNat ≤ 0xFFE) :
    fetch s = .ok (s.mem.read s.pc.toNat ++ s.mem.read (s.pc.toNat + 1)) := by
  unfold fetch memRead2
  rw [if_neg (by simp only [Config.addrMax]; omega)]
  rfl

theorem fetch_of_gt {s : State} (h : 0xFFE < s.pc.toNat) : fetch s = .error (.addressOutOfRange s.pc) := by
  unfold fetch memRead2
  rw [if_pos (by simp only [Config.addrMax]; omega)]

theorem status_running_or_halted (s : State) : s.status = .running ∨ ∃ k, s.status = .halted k := by
  cases s.status <;> simp

theorem step_of_halted {s : State} {k : StepError} (h : s.status = .halted k) : step s = .next s := by
  simp only [step, h]

theorem step_of_fetch_error {s : State} (hr : s.status = .running) (h : 0xFFE < s.pc.toNat) :
    step s = .next (raise (.addressOutOfRange s.pc) s) := by
  simp only [step, hr, fetch_of_gt h]

theorem step_of_invalid {s : State} {e : DecodeError} (hr : s.status = .running) (h : s.pc.toNat ≤ 0xFFE)
    (hd : decode (s.mem.read s.pc.toNat ++ s.mem.read (s.pc.toNat + 1)) = .error e) :
    step s = .next (raise .invalidInstruction (advancePc s)) := by
  simp only [step, hr, fetch_of_le h, hd]

theorem step_of_decoded {s : State} {i : Instr} (hr : s.status = .running) (h : s.pc.toNat ≤ 0xFFE)
    (hd : decode (s.mem.read s.pc.toNat ++ s.mem.read (s.pc.toNat + 1)) = .ok i) :
    step s = exec i (advancePc s) := by
  simp only [step, hr, fetch_of_le h, hd]

/-- Everything a Step that answers a next state can be. -/
theorem step_cases {s t : State} (h : step s = .next t) :
    (∃ k, s.status = .halted k ∧ t = s) ∨
    (s.status = .running ∧ 0xFFE < s.pc.toNat ∧ t = raise (.addressOutOfRange s.pc) s) ∨
    (s.status = .running ∧ s.pc.toNat ≤ 0xFFE ∧
      (∃ e, decode (s.mem.read s.pc.toNat ++ s.mem.read (s.pc.toNat + 1)) = .error e) ∧
      t = raise .invalidInstruction (advancePc s)) ∨
    (∃ i, s.status = .running ∧ Fetched s i ∧ exec i (advancePc s) = .next t) := by
  rcases status_running_or_halted s with hr | ⟨k, hk⟩
  · by_cases hp : s.pc.toNat ≤ 0xFFE
    · rcases hd : decode (s.mem.read s.pc.toNat ++ s.mem.read (s.pc.toNat + 1)) with e | i
      · rw [step_of_invalid hr hp hd] at h
        cases h
        exact .inr (.inr (.inl ⟨hr, hp, ⟨e, rfl⟩, rfl⟩))
      · rw [step_of_decoded hr hp hd] at h
        exact .inr (.inr (.inr ⟨i, hr, ⟨hp, hd⟩, h⟩))
    · have hp : 0xFFE < s.pc.toNat := by omega
      rw [step_of_fetch_error hr hp] at h
      cases h
      exact .inr (.inl ⟨hr, hp, rfl⟩)
  · rw [step_of_halted hk] at h
    cases h
    exact .inl ⟨k, hk, rfl⟩

/-! ### The stack pointer (R27) -/

theorem stackIndex_eq {sp : Word} {j : Fin 16} (h : sp.toNat = 2 * j.val) : stackIndex sp = j := by
  have := j.isLt
  apply Fin.ext
  simp only [stackIndex, Config.spStep, h, Fin.ofNat]
  omega

/-- A legal `sp` below 32 is twice a stack index. -/
theorem exists_index_of_legal {sp : Word} (h : LegalSp sp) (h32 : sp.toNat ≠ 32) :
    ∃ j : Fin 16, sp.toNat = 2 * j.val := by
  obtain ⟨h1, h2⟩ := h
  simp only [Config.spFull, Config.spStep] at h1 h2
  exact ⟨⟨sp.toNat / 2, by omega⟩, by simp only; omega⟩

theorem toNat_add_two {sp : Word} (h : sp.toNat < 0xFFFE) : (sp + 2).toNat = sp.toNat + 2 := by
  simp [BitVec.toNat_add]
  omega

theorem toNat_sub_two {sp : Word} (h : 2 ≤ sp.toNat) : (sp - 2).toNat = sp.toNat - 2 := by
  have := sp.isLt
  simp [BitVec.toNat_sub]
  omega

theorem legalSp_add_two {sp : Word} (h : LegalSp sp) (h32 : sp.toNat ≠ 32) : LegalSp (sp + 2) := by
  obtain ⟨h1, h2⟩ := h
  simp only [Config.spFull, Config.spStep] at h1 h2
  have := toNat_add_two (sp := sp) (by omega)
  exact ⟨by simp only [Config.spFull]; omega, by simp only [Config.spStep]; omega⟩

theorem legalSp_sub_two {sp : Word} (h : LegalSp sp) (h0 : sp.toNat ≠ 0) : LegalSp (sp - 2) := by
  obtain ⟨h1, h2⟩ := h
  simp only [Config.spFull, Config.spStep] at h1 h2
  have := toNat_sub_two (sp := sp) (by omega)
  exact ⟨by simp only [Config.spFull]; omega, by simp only [Config.spStep]; omega⟩

/-! ### Operands and flags -/

theorem toNat_addrOperand (nnn : Addr) : (addrOperand nnn).toNat = nnn.toNat := by
  have := nnn.isLt
  simp [addrOperand]
  omega

theorem toNat_indexedTarget (nnn : Addr) (v : Byte) : (indexedTarget nnn v).toNat = nnn.toNat + v.toNat := by
  have := nnn.isLt
  have := v.isLt
  simp [indexedTarget]
  omega

theorem sumByte_eq_add (a b : Byte) : sumByte a b = a + b := by
  apply BitVec.eq_of_toNat_eq
  simp [sumByte, sum9]

theorem flagByte_decide (p : Prop) [Decidable p] : flagByte (decide p) = if p then 1 else 0 := by
  by_cases p <;> simp [flagByte, *]

theorem flagByte_zero_or_one (f : Bool) : flagByte f = 0 ∨ flagByte f = 1 := by
  cases f <;> simp [flagByte]

/-! ### Resume (R143) -/

theorem resumeDriver_of_unimplemented {s : State} (h : s.status = .halted .unimplemented) :
    resumeDriver s = setStatus s .running := by
  simp only [resumeDriver, h]

theorem resumeDriver_of_other {s : State} (h : s.status ≠ .halted .unimplemented) : resumeDriver s = s := by
  unfold resumeDriver
  split
  · exact absurd ‹_› h
  · rfl

end Sys2Proof.Machine
end

