-- ==== Sys2Proof/Laws/Exec.lean ====
section
/-! SUPPORT. Everything an instruction can do when it answers a next state, one constructor per kind of effect: the one
lemma proofs cite instead of unfolding `exec`. -/

namespace Sys2Proof.Machine

/-- The effects of an instruction on a state: `Effect s i t` when `exec i s` can leave `t`. -/
inductive Effect (s : State) : Instr → State → Prop where
  | jump (nnn : Addr) : Effect s (.jp nnn) (setPc s (addrOperand nnn))
  | indexedJump (nnn : Addr) : Effect s (.jpV0 nnn) (setPc s (indexedTarget nnn (getV s .v0)))
  | callFull (nnn : Addr) (h : s.sp.toNat = 32) : Effect s (.call nnn) (raise .stackOverflow s)
  | call (nnn : Addr) (h : LegalSp s.sp) (h32 : s.sp.toNat ≠ 32) :
      Effect s (.call nnn) (setPc (pushStack s s.pc) (addrOperand nnn))
  | returnEmpty (h : s.sp.toNat = 0) : Effect s .ret (raise .stackUnderflow s)
  | return (h : LegalSp s.sp) (h0 : s.sp.toNat ≠ 0) :
      Effect s .ret (setPc (popStack s) (stackAtSp (popStack s)))
  | skip (i : Instr) (taken : Bool)
      (hi : (∃ x kk, i = .seImm x kk ∨ i = .sneImm x kk) ∨ ∃ x y, i = .seReg x y ∨ i = .sneReg x y) :
      Effect s i (if taken then advancePc s else s)
  | write (i : Instr) (x : Reg) (v : Byte) (hd : destReg i = some x) (hf : writesFlag i = false) :
      Effect s i (setV s x v)
  | writeFlag (i : Instr) (x : Reg) (v : Byte) (f : Bool) (hd : destReg i = some x) (hf : writesFlag i = true) :
      Effect s i (setFlag (setV s x v) f)
  | loadIndex (nnn : Addr) : Effect s (.ldI nnn) (setI s (addrOperand nnn))
  | clear : Effect s .cls (setFb s (Vector.replicate 32 0))
  | drawOutOfRange (x y : Reg) (n : Fin 16) (h : SpriteOutOfRange s.I.toNat n.val) :
      Effect s (.drw x y n) (raise (.addressOutOfRange s.I) s)
  | draw (x y : Reg) (n : Fin 16) (rows : Vector Scanline 32) (hit : Bool)
      (h : ¬ SpriteOutOfRange s.I.toNat n.val)
      (hb : blit (originColumn (getV s x)) (getV s y).toNat (spriteBytes s s.I.toNat n.val) s.fb = (rows, hit)) :
      Effect s (.drw x y n) (setFlag (setFb s rows) hit)
  | unimplemented (i : Instr) (h : i.unimplemented = true) : Effect s i (raise .unimplemented s)

theorem effect_skipIf {s t : State} {i : Instr} {c : Bool} (h : skipIf c s = .next t)
    (hi : (∃ x kk, i = .seImm x kk ∨ i = .sneImm x kk) ∨ ∃ x y, i = .seReg x y ∨ i = .sneReg x y) :
    Effect s i t := by
  cases h
  exact .skip i c hi

theorem effect_call {s t : State} {nnn : Addr} (h : execCall nnn s = .next t) : Effect s (.call nnn) t := by
  unfold execCall at h
  split at h
  next h32 => cases h; exact .callFull nnn h32
  next h32 =>
    split at h
    next hl => cases h; exact .call nnn hl h32
    next => cases h

theorem effect_ret {s t : State} (h : execRet s = .next t) : Effect s .ret t := by
  unfold execRet at h
  split at h
  next h0 => cases h; exact .returnEmpty h0
  next h0 =>
    split at h
    next hl => cases h; exact .return hl h0
    next => cases h

theorem effect_drw {s t : State} {x y : Reg} {n : Fin 16} (h : execDrw x y n s = .next t) :
    Effect s (.drw x y n) t := by
  unfold execDrw at h
  split at h
  next ho => cases h; exact .drawOutOfRange x y n ho
  next ho => cases h; exact .draw x y n _ _ ho rfl

/-- What an instruction leaves, when it leaves a state, is one of its effects. -/
theorem effect_of_exec {i : Instr} {s t : State} (h : exec i s = .next t) : Effect s i t := by
  cases i with
  | cls => cases h; exact .clear
  | ret => exact effect_ret h
  | jp nnn => cases h; exact .jump nnn
  | call nnn => exact effect_call h
  | seImm x kk => exact effect_skipIf h (.inl ⟨x, kk, .inl rfl⟩)
  | sneImm x kk => exact effect_skipIf h (.inl ⟨x, kk, .inr rfl⟩)
  | seReg x y => exact effect_skipIf h (.inr ⟨x, y, .inl rfl⟩)
  | sneReg x y => exact effect_skipIf h (.inr ⟨x, y, .inr rfl⟩)
  | ldImm x kk => cases h; exact .write _ x _ rfl rfl
  | addImm x kk => cases h; exact .write _ x _ rfl rfl
  | ldReg x y => cases h; exact .write _ x _ rfl rfl
  | or x y => cases h; exact .write _ x _ rfl rfl
  | and x y => cases h; exact .write _ x _ rfl rfl
  | xor x y => cases h; exact .write _ x _ rfl rfl
  | addReg x y => cases h; exact .writeFlag _ x _ _ rfl rfl
  | sub x y => cases h; exact .writeFlag _ x _ _ rfl rfl
  | shr x => cases h; exact .writeFlag _ x _ _ rfl rfl
  | subn x y => cases h; exact .writeFlag _ x _ _ rfl rfl
  | shl x => cases h; exact .writeFlag _ x _ _ rfl rfl
  | ldI nnn => cases h; exact .loadIndex nnn
  | jpV0 nnn => cases h; exact .indexedJump nnn
  | drw x y n => exact effect_drw h
  | sys | rnd | skp | sknp | ldVxDt | ldVxK | ldDtVx | ldStVx | addIVx | ldFVx | ldBVx | storeRegs | loadRegs =>
    cases h
    exact .unimplemented _ rfl

/-- No instruction has an effect on memory (R46). -/
theorem effect_mem {s t : State} {i : Instr} (h : Effect s i t) : t.mem = s.mem := by
  cases h <;> first | rfl | (split <;> rfl)

/-- An effect either leaves the status as it was or changes nothing but the status (R15). -/
theorem effect_status {s t : State} {i : Instr} (h : Effect s i t) :
    t.status = s.status ∨ ∃ k, t = raise k s := by
  cases h <;> first | exact .inl rfl | exact .inr ⟨_, rfl⟩ | (split <;> exact .inl rfl)

/-- The 13 unimplemented instructions only raise (R129). -/
theorem exec_of_unimplemented {i : Instr} (h : i.unimplemented = true) (s : State) :
    exec i s = .next (raise .unimplemented s) := by
  cases i <;> first | rfl | simp [Instr.unimplemented] at h

end Sys2Proof.Machine
end

