-- ==== Sys2Proof/Laws/Display.lean ====
section
/-! SUPPORT. The bits of a reversed byte and of a rotated scanline (R12), and which scanlines a draw touches (R110). -/

namespace Sys2Proof.Machine

/-- Bit `k` of `rev_8(b)` is bit `7 - k` of `b`; above bit 7 there is none (R12). -/
theorem getLsbD_rev8 (b : Byte) (k : Nat) : (rev8 b).getLsbD k = (decide (k < 8) && b.getLsbD (7 - k)) := by
  by_cases h : k < 8
  · have all : ∀ (b : Byte) (k : Fin 8), (rev8 b).getLsbD k.val = b.getLsbD (7 - k.val) := by decide
    simpa [h] using all b ⟨k, h⟩
  · simp [h, BitVec.getLsbD_of_ge _ _ (Nat.not_lt.mp h)]

/-- Bit `c` of `rotl_64(v, k)` is the bit of `v` that lies `k` places to the right of it, cyclically (R12). -/
theorem getLsbD_rotl64 (v : Scanline) {k c : Nat} (hk : k < 64) (hc : c < 64) :
    (rotl64 v k).getLsbD c = v.getLsbD ((c + 64 - k) % 64) := by
  unfold rotl64
  split
  next h0 =>
    subst h0
    rw [show (c + 64 - 0) % 64 = c by omega]
  next h0 =>
    simp only [BitVec.getLsbD_or, BitVec.getLsbD_shiftLeft, BitVec.getLsbD_ushiftRight, Config.screenW]
    by_cases hck : c < k
    · rw [show (c + 64 - k) % 64 = 64 - k + c by omega]
      simp [hck]
    · rw [show (c + 64 - k) % 64 = c - k by omega]
      simp [hck, hc, BitVec.getLsbD_of_ge v (64 - k + c) (by omega)]

theorem val_targetRow (row : Nat) : (targetRow row).val = row % 32 := rfl

/-- One row of a draw, then the rest (R112, R113). -/
theorem blit_cons (cx row : Nat) (b : Byte) (rest : List Byte) (fb : Vector Scanline 32) :
    blit cx row (b :: rest) fb =
      ((blit cx (row + 1) rest (fb.set (targetRow row) (fb[targetRow row] ^^^ spriteBits b cx))).1,
       rowCollides fb[targetRow row] (spriteBits b cx) ||
        (blit cx (row + 1) rest (fb.set (targetRow row) (fb[targetRow row] ^^^ spriteBits b cx))).2) := rfl

/-- A scanline no row lands on is unchanged (R112). -/
theorem blit_row_unchanged (cx : Nat) (rows : List Byte) (row : Nat) (fb : Vector Scanline 32) (r : Fin 32)
    (h : ∀ i < rows.length, (row + i) % 32 ≠ r.val) : (blit cx row rows fb).1[r] = fb[r] := by
  induction rows generalizing row fb with
  | nil => rfl
  | cons b rest ih =>
    rw [blit_cons]
    have h0 : (targetRow row).val ≠ r.val := h 0 (by simp)
    have hrest : ∀ i < rest.length, (row + 1 + i) % 32 ≠ r.val := fun i hi => by
      have := h (i + 1) (by simp; omega)
      rwa [Nat.add_comm i 1, ← Nat.add_assoc] at this
    simp only [ih (row + 1) _ hrest, Fin.getElem_fin]
    exact Vector.getElem_set_ne _ _ h0

/-- The pixels after a row loop of at most 32 rows: each is the pixel before, inverted by the one row that may land on its
scanline (R110 to R112). -/
theorem blit_pixel (cx : Nat) (rows : List Byte) (row : Nat) (fb : Vector Scanline 32) (hl : rows.length ≤ 32)
    (r : Fin 32) (c : Nat) :
    (blit cx row rows fb).1[r].getLsbD c =
      (fb[r].getLsbD c ^^ (List.range rows.length).any fun i =>
        (row + i) % 32 == r.val && (spriteBits (rows[i]?.getD 0) cx).getLsbD c) := by
  induction rows generalizing row fb with
  | nil => simp [blit]
  | cons b rest ih =>
    simp only [List.length_cons] at hl
    simp only [blit_cons, List.length_cons, List.range_succ_eq_map, List.any_cons, List.any_map, Function.comp_def,
      Nat.succ_eq_add_one]
    rw [ih (row + 1) _ (by omega)]
    have shift : ∀ i, row + 1 + i = row + (i + 1) := by omega
    by_cases hr : row % 32 = r.val
    · -- the first row lands on `r`, so no later one does
      have noneLater : ((List.range rest.length).any fun i =>
          (row + (i + 1)) % 32 == r.val && (spriteBits (rest[i]?.getD 0#8) cx).getLsbD c) = false := by
        rw [List.any_eq_false]
        intro i hi
        rw [List.mem_range] at hi
        simp [show (row + (i + 1)) % 32 ≠ r.val by omega]
      simp [shift, noneLater, show targetRow row = r from Fin.ext hr, hr]
    · -- the first row lands elsewhere
      simp only [Fin.getElem_fin]
      rw [Vector.getElem_set_ne _ _ (show (targetRow row).val ≠ r.val from hr)]
      simp [shift, hr]

/-- The collision flag of a row loop of at most 32 rows: some row meets a set pixel of the screen before the draw,
since no other row lands on its scanline (R110, R113, R114). -/
theorem blit_hit (cx : Nat) (rows : List Byte) (row : Nat) (fb : Vector Scanline 32) (hl : rows.length ≤ 32) :
    (blit cx row rows fb).2 = true ↔
      ∃ i < rows.length, (fb[targetRow (row + i)] &&& spriteBits (rows[i]?.getD 0) cx) ≠ 0 := by
  induction rows generalizing row fb with
  | nil => simp [blit]
  | cons b rest ih =>
    simp only [List.length_cons] at hl
    have shift : ∀ i, row + 1 + i = row + (i + 1) := by omega
    have unmoved : ∀ i < rest.length, ∀ v, (fb.set (targetRow row) v)[targetRow (row + 1 + i)] =
        fb[targetRow (row + 1 + i)] := fun i hi v =>
      Vector.getElem_set_ne _ _ (show (targetRow row).val ≠ (targetRow (row + 1 + i)).val by
        simp only [val_targetRow]; omega)
    rw [blit_cons]
    simp only [Bool.or_eq_true, ih (row + 1) _ (by omega), rowCollides, bne_iff_ne]
    constructor
    · rintro (h | ⟨i, hi, h⟩)
      · exact ⟨0, by simp, by simpa using h⟩
      · rw [unmoved i hi] at h
        exact ⟨i + 1, by simpa using hi, by simpa [shift] using h⟩
    · rintro ⟨i | i, hi, h⟩
      · exact .inl (by simpa using h)
      · have hi : i < rest.length := by simpa using hi
        refine .inr ⟨i, hi, ?_⟩
        rw [unmoved i hi]
        simpa [shift] using h

end Sys2Proof.Machine
end

