-- ==== Sys2Proof/Laws/PerInstr.lean ====
section
/-! SUPPORT. The family EncodedRow: the word the encoder writes for an instruction selects that instruction's own row
of the opcode map (R63), and the fields that row cuts build the instruction back. -/

namespace Sys2Proof.Laws.EncodedRow

/-- `encode i` has the fixed bits of a row of the opcode map, and that row's operands give `i` back. -/
def Statement (i : Instr) : Prop :=
  ∃ (k : Nat) (r : OpcodeRow), opcodeTable[k]? = some r ∧
    encode i &&& r.mask = r.pattern ∧ r.build (fieldsOf (encode i)) = i

theorem cls : Statement .cls := ⟨0, _, rfl, by decide, rfl⟩

theorem ret : Statement .ret := ⟨1, _, rfl, by decide, rfl⟩

theorem sys (nnn : Addr) : Statement (.sys nnn) := ⟨2, _, rfl, wordNNN_and_F000 .., by simp [encode]⟩

theorem jp (nnn : Addr) : Statement (.jp nnn) := ⟨3, _, rfl, wordNNN_and_F000 .., by simp [encode]⟩

theorem call (nnn : Addr) : Statement (.call nnn) := ⟨4, _, rfl, wordNNN_and_F000 .., by simp [encode]⟩

theorem seImm (x : Reg) (kk : Byte) : Statement (.seImm x kk) := ⟨5, _, rfl, wordXKK_and_F000 .., by simp [encode]⟩

theorem sneImm (x : Reg) (kk : Byte) : Statement (.sneImm x kk) := ⟨6, _, rfl, wordXKK_and_F000 .., by simp [encode]⟩

theorem seReg (x y : Reg) : Statement (.seReg x y) := ⟨7, _, rfl, wordXYN_and_F000 .., by simp [encode]⟩

theorem ldImm (x : Reg) (kk : Byte) : Statement (.ldImm x kk) := ⟨8, _, rfl, wordXKK_and_F000 .., by simp [encode]⟩

theorem addImm (x : Reg) (kk : Byte) : Statement (.addImm x kk) := ⟨9, _, rfl, wordXKK_and_F000 .., by simp [encode]⟩

theorem ldReg (x y : Reg) : Statement (.ldReg x y) := ⟨10, _, rfl, wordXYN_and_F00F .., by simp [encode]⟩

theorem or (x y : Reg) : Statement (.or x y) := ⟨11, _, rfl, wordXYN_and_F00F .., by simp [encode]⟩

theorem and (x y : Reg) : Statement (.and x y) := ⟨12, _, rfl, wordXYN_and_F00F .., by simp [encode]⟩

theorem xor (x y : Reg) : Statement (.xor x y) := ⟨13, _, rfl, wordXYN_and_F00F .., by simp [encode]⟩

theorem addReg (x y : Reg) : Statement (.addReg x y) := ⟨14, _, rfl, wordXYN_and_F00F .., by simp [encode]⟩

theorem sub (x y : Reg) : Statement (.sub x y) := ⟨15, _, rfl, wordXYN_and_F00F .., by simp [encode]⟩

theorem shr (x : Reg) : Statement (.shr x) := ⟨16, _, rfl, wordXYN_and_F00F .., by simp [encode]⟩

theorem subn (x y : Reg) : Statement (.subn x y) := ⟨17, _, rfl, wordXYN_and_F00F .., by simp [encode]⟩

theorem shl (x : Reg) : Statement (.shl x) := ⟨18, _, rfl, wordXYN_and_F00F .., by simp [encode]⟩

theorem sneReg (x y : Reg) : Statement (.sneReg x y) := ⟨19, _, rfl, wordXYN_and_F000 .., by simp [encode]⟩

theorem ldI (nnn : Addr) : Statement (.ldI nnn) := ⟨20, _, rfl, wordNNN_and_F000 .., by simp [encode]⟩

theorem jpV0 (nnn : Addr) : Statement (.jpV0 nnn) := ⟨21, _, rfl, wordNNN_and_F000 .., by simp [encode]⟩

theorem rnd (x : Reg) (kk : Byte) : Statement (.rnd x kk) := ⟨22, _, rfl, wordXKK_and_F000 .., by simp [encode]⟩

theorem drw (x y : Reg) (n : Fin 16) : Statement (.drw x y n) := ⟨23, _, rfl, wordXYN_and_F000 .., by simp [encode]⟩

theorem skp (x : Reg) : Statement (.skp x) := ⟨24, _, rfl, wordXKK_and_F0FF .., by simp [encode]⟩

theorem sknp (x : Reg) : Statement (.sknp x) := ⟨25, _, rfl, wordXKK_and_F0FF .., by simp [encode]⟩

theorem ldVxDt (x : Reg) : Statement (.ldVxDt x) := ⟨26, _, rfl, wordXKK_and_F0FF .., by simp [encode]⟩

theorem ldVxK (x : Reg) : Statement (.ldVxK x) := ⟨27, _, rfl, wordXKK_and_F0FF .., by simp [encode]⟩

theorem ldDtVx (x : Reg) : Statement (.ldDtVx x) := ⟨28, _, rfl, wordXKK_and_F0FF .., by simp [encode]⟩

theorem ldStVx (x : Reg) : Statement (.ldStVx x) := ⟨29, _, rfl, wordXKK_and_F0FF .., by simp [encode]⟩

theorem addIVx (x : Reg) : Statement (.addIVx x) := ⟨30, _, rfl, wordXKK_and_F0FF .., by simp [encode]⟩

theorem ldFVx (x : Reg) : Statement (.ldFVx x) := ⟨31, _, rfl, wordXKK_and_F0FF .., by simp [encode]⟩

theorem ldBVx (x : Reg) : Statement (.ldBVx x) := ⟨32, _, rfl, wordXKK_and_F0FF .., by simp [encode]⟩

theorem storeRegs (x : Reg) : Statement (.storeRegs x) := ⟨33, _, rfl, wordXKK_and_F0FF .., by simp [encode]⟩

theorem loadRegs (x : Reg) : Statement (.loadRegs x) := ⟨34, _, rfl, wordXKK_and_F0FF .., by simp [encode]⟩

end Sys2Proof.Laws.EncodedRow
end

