-- ==== Sys2Proof/Tests/Slice0.lean ====
section
/-! SUPPORT. Tests: the WellFormed smoke test, decoding of words written out from the spec's encodings, and the spec's
worked examples and vectors (spec/95_test_vectors.md, Part 2, named in each comment). Witnesses for the hypotheses of
the statements stand at the end. -/

namespace Sys2Proof.Tests

open Sys2Proof.Machine

/-! ### Well-formedness: the two class-0 words that are never SYS (R59) -/

theorem test_sys_cls_word_ill_formed : (Instr.sys 0x0E0#12).wellFormed = false := by decide
theorem test_sys_ret_word_ill_formed : (Instr.sys 0x0EE#12).wellFormed = false := by decide
theorem test_sys_well_formed : (Instr.sys 0x1E0#12).wellFormed = true := by decide

/-! ### Decoding: words written out nibble by nibble from R63's patterns -/

/-- Class 0 (R59): 00E0, 00EE, and SYS for 0NNN; 01E0 is not CLS (vector PL10). -/
theorem test_decode_class0 :
    decode 0x00E0#16 = .ok .cls ∧ decode 0x00EE#16 = .ok .ret ∧ decode 0x01E0#16 = .ok (.sys 0x1E0#12) ∧
    decode 0x0000#16 = .ok (.sys 0#12) := by decide

/-- 1NNN, 2NNN, ANNN, BNNN. -/
theorem test_decode_address_words :
    decode 0x1234#16 = .ok (.jp 0x234#12) ∧ decode 0x2300#16 = .ok (.call 0x300#12) ∧
    decode 0xA2F0#16 = .ok (.ldI 0x2F0#12) ∧ decode 0xB5FE#16 = .ok (.jpV0 0x5FE#12) := by decide

/-- 3XKK, 4XKK, 6XKK, 7XKK, CXKK. -/
theorem test_decode_immediate_words :
    decode 0x3310#16 = .ok (.seImm 3 0x10#8) ∧ decode 0x4501#16 = .ok (.sneImm 5 0x01#8) ∧
    decode 0x6A2B#16 = .ok (.ldImm 10 0x2B#8) ∧ decode 0x73FF#16 = .ok (.addImm 3 0xFF#8) ∧
    decode 0xC0FF#16 = .ok (.rnd 0 0xFF#8) := by decide

/-- 5XYN and 9XYN, whatever N (R58); DXYN. -/
theorem test_decode_register_pair_words :
    decode 0x5120#16 = .ok (.seReg 1 2) ∧ decode 0x512F#16 = .ok (.seReg 1 2) ∧
    decode 0x9120#16 = .ok (.sneReg 1 2) ∧ decode 0x912F#16 = .ok (.sneReg 1 2) ∧
    decode 0xD01F#16 = .ok (.drw 0 1 15) := by decide

/-- 8XY0 to 8XY7 and 8XYE (R60). -/
theorem test_decode_class8 :
    decode 0x8120#16 = .ok (.ldReg 1 2) ∧ decode 0x8121#16 = .ok (.or 1 2) ∧
    decode 0x8122#16 = .ok (.and 1 2) ∧ decode 0x8123#16 = .ok (.xor 1 2) ∧
    decode 0x8124#16 = .ok (.addReg 1 2) ∧ decode 0x8125#16 = .ok (.sub 1 2) ∧
    decode 0x8126#16 = .ok (.shr 1) ∧ decode 0x8127#16 = .ok (.subn 1 2) ∧
    decode 0x812E#16 = .ok (.shl 1) := by decide

/-- EX9E, EXA1 and the nine of class F (R61, R62). -/
theorem test_decode_classes_E_F :
    decode 0xE19E#16 = .ok (.skp 1) ∧ decode 0xE1A1#16 = .ok (.sknp 1) ∧
    decode 0xF307#16 = .ok (.ldVxDt 3) ∧ decode 0xF30A#16 = .ok (.ldVxK 3) ∧
    decode 0xF315#16 = .ok (.ldDtVx 3) ∧ decode 0xF318#16 = .ok (.ldStVx 3) ∧
    decode 0xF31E#16 = .ok (.addIVx 3) ∧ decode 0xF329#16 = .ok (.ldFVx 3) ∧
    decode 0xF333#16 = .ok (.ldBVx 3) ∧ decode 0xF355#16 = .ok (.storeRegs 3) ∧
    decode 0xF365#16 = .ok (.loadRegs 3) := by decide

/-- Words that select no row (R64, vectors PL5 to PL8). -/
theorem test_decode_invalid :
    decode 0x8008#16 = .error .invalidInstruction ∧ decode 0xE000#16 = .error .invalidInstruction ∧
    decode 0xF000#16 = .error .invalidInstruction ∧ decode 0xF01F#16 = .error .invalidInstruction := by decide

/-- Bytes are big-endian (R41), and one byte is no instruction (R66). -/
theorem test_decode_bytes :
    decodeBytes [0x12#8, 0x34#8, 0x56#8] = .ok (.jp 0x234#12, [0x56#8]) ∧
    decodeBytes [0x12#8] = .error .truncated := by decide

theorem test_decode_table_word :
    decodeTableWord 16 0xD015 = some (.drw 0 1 5) ∧ decodeTableWord 16 0x800F = none := by decide

/-! ### One Step on a small state -/

/-- Right after reset, with the word `w` at 0x200. -/
def loaded (w : Nat) : State := State.reset.withFetchWord 16 w

/-- What an outcome holds when it is a next state. -/
def nextOf {α : Type} (o : Host.Outcome α Fault Refusal) : Option α :=
  match o with
  | .next t => some t
  | _ => none

theorem eq_next_of_nextOf {α : Type} {o : Host.Outcome α Fault Refusal} {t : α} (h : nextOf o = some t) :
    o = .next t := by
  cases o with
  | next u => exact congrArg _ (Option.some.inj h)
  | fault => cases h
  | refused => cases h

/-- The state a Step leaves, if it leaves one. -/
def after (s : State) : Option State := nextOf (step s)

theorem test_memory_write_canonical :
    Memory.write (Memory.write [] 0x300 5) 0x300 0 = [] ∧ Memory.write [] 0 0xF0 = [] ∧
    Memory.write (Memory.write [] 0x300 5) 0x201 7 = [(0x201, 7), (0x300, 5)] := by decide

/-- Vector LD4 and the ends of the font table of R31. -/
theorem test_font : (State.reset.mem.read 0 = 0xF0 ∧ State.reset.mem.read 5 = 0x20) ∧
    State.reset.mem.read 0x4B = 0xF0 ∧ State.reset.mem.read 0x4F = 0x80 ∧ State.reset.mem.read 0x50 = 0 := by
  decide

/-- Vector PL2: the last legal fetch. -/
theorem test_fetch_last : ((setPc State.reset 0xFFE).withFetchWord 16 0x1200 |> after).map (·.pc) = some 0x200 := by
  decide

/-- Vector PL3: the fetch error leaves `pc`. -/
theorem test_fetch_out_of_range : after (setPc State.reset 0xFFF) =
    some { State.reset with pc := 0xFFF, status := .halted (.addressOutOfRange 0xFFF) } := by decide

/-- Vector PL5. -/
theorem test_invalid : (after (loaded 0x8008)).map (fun t => (t.pc, t.status)) =
    some (0x202, .halted .invalidInstruction) := by decide

/-- Vectors PL9 and LD3: the first Step before any Load. -/
theorem test_sys : after State.reset =
    some { State.reset with pc := 0x202, status := .halted .unimplemented } := by decide

/-- Vector CF1. -/
theorem test_jp : (after (loaded 0x1234)).map (·.pc) = some 0x234 := by decide

/-- Vectors CF10 and CF11: no reduction modulo 4096, and V0 is added whatever the `x` field. -/
theorem test_jpV0 : ((after (setV (loaded 0xBFFF) 0 0xFF)).map (·.pc) = some 0x10FE) ∧
    (after (setV (setV (loaded 0xB5FE) 0 1) 5 0x40)).map (·.pc) = some 0x5FF := by decide

/-- Vector CF4. -/
theorem test_call : (after (loaded 0x2300)).map (fun t => (t.stack[0], t.sp, t.pc)) =
    some (0x202, 2, 0x300) := by decide

/-- Vector CF5. -/
theorem test_call_full : (after { loaded 0x2300 with sp := 32 }).map (fun t => (t.sp, t.pc, t.status)) =
    some (32, 0x202, .halted .stackOverflow) := by decide

/-- Vector CF6. -/
theorem test_ret : (after { loaded 0x00EE with sp := 2, stack := State.reset.stack.set 0 0x202 }).map
    (fun t => (t.sp, t.pc, t.stack[0])) = some (0, 0x202, 0x202) := by decide

/-- Vector CF7. -/
theorem test_ret_empty : (after (loaded 0x00EE)).map (fun t => (t.sp, t.pc, t.status)) =
    some (0, 0x202, .halted .stackUnderflow) := by decide

/-- Vectors SK1 and SK2. -/
theorem test_seImm : (after (setV (loaded 0x3310) 3 0x10)).map (·.pc) = some 0x204 ∧
    (after (setV (loaded 0x3310) 3 0x11)).map (·.pc) = some 0x202 := by decide

/-- Vectors SK3 and SK4. -/
theorem test_sneImm : (after (loaded 0x4501)).map (·.pc) = some 0x204 ∧
    (after (setV (loaded 0x4501) 5 1)).map (·.pc) = some 0x202 := by decide

/-- Vectors SK6 and SK7. -/
theorem test_seReg : (after (setV (setV (loaded 0x512F) 1 0x7F) 2 0x7F)).map (·.pc) = some 0x204 ∧
    (after (setV (setV (loaded 0x5120) 1 1) 2 2)).map (·.pc) = some 0x202 := by decide

/-- Vectors SK8 and SK9. -/
theorem test_sneReg : (after (setV (setV (loaded 0x9120) 1 1) 2 2)).map (·.pc) = some 0x204 ∧
    (after (loaded 0x9110)).map (·.pc) = some 0x202 := by decide

/-- `V[x]` and VF after one Step of the word `w` at 0x200, from `V[x] = a` and `V[y] = b`. -/
def alu (w : Nat) (x y : Reg) (a b : Byte) : Option (Byte × Byte) :=
  (after (setV (setV (loaded w) y b) x a)).map (fun t => (t.V[x], t.V[15]))

/-- Vectors AL1, AL3, AL6 and AL7. -/
theorem test_addReg : alu 0x8124 1 2 0xFF 0x01 = some (0x00, 1) ∧ alu 0x8124 1 2 0x80 0x7F = some (0xFF, 0) ∧
    alu 0x8F14 15 1 0x01 0xFF = some (1, 1) ∧ alu 0x81F4 1 15 0x10 0x05 = some (0x15, 0) := by decide

/-- Vectors AL8 to AL11. -/
theorem test_sub : alu 0x8125 1 2 0x0A 0x03 = some (0x07, 1) ∧ alu 0x8125 1 2 0x05 0x05 = some (0x00, 0) ∧
    alu 0x8125 1 2 0x00 0x01 = some (0xFF, 0) ∧ alu 0x8F15 15 1 0x05 0x03 = some (1, 1) := by decide

/-- Vectors AL13, AL14 and AL15. -/
theorem test_subn : alu 0x8127 1 2 0x03 0x0A = some (0x07, 1) ∧ alu 0x8127 1 2 0x05 0x05 = some (0x00, 0) ∧
    alu 0x8127 1 2 0x02 0x01 = some (0xFF, 0) := by decide

/-- Vectors AL16, AL18 and AL22 (the shift reads `V[x]`, not `V[y]`). -/
theorem test_shr : alu 0x8106 1 0 0x01 0 = some (0x00, 1) ∧ alu 0x8F06 15 0 0x03 0 = some (1, 1) ∧
    alu 0x8126 1 2 0x04 0x07 = some (0x02, 0) := by decide

/-- Vectors AL19, AL20 and AL21. -/
theorem test_shl : alu 0x810E 1 0 0x80 0 = some (0x00, 1) ∧ alu 0x810E 1 0 0x7F 0 = some (0xFE, 0) ∧
    alu 0x8F0E 15 0 0x81 0 = some (1, 1) := by decide

/-- Vectors AL23 and AL28 (OR does not write VF). -/
theorem test_or : alu 0x8121 1 2 0x0F 0xF0 = some (0xFF, 0) ∧ alu 0x81F1 1 15 0x01 0x80 = some (0x81, 0x80) := by
  decide

/-- Vector AL24. -/
theorem test_and : alu 0x8122 1 2 0x3C 0x0F = some (0x0C, 0) := by decide

/-- Vectors AL25 and AL26. -/
theorem test_xor : alu 0x8123 1 2 0xFF 0x0F = some (0xF0, 0) ∧ alu 0x8113 1 1 0xAA 0xAA = some (0, 0) := by decide

/-- Vector AL27. -/
theorem test_ldReg : alu 0x8120 1 2 0x00 0x55 = some (0x55, 0) := by decide

/-- Vector AI1. -/
theorem test_ldImm : (after (loaded 0x6A2B)).map (·.V[10]) = some 0x2B := by decide

/-- Vectors AI2 and AI3. -/
theorem test_addImm : (after (setV (setV (loaded 0x73FF) 3 1) 15 0x77)).map (fun t => (t.V[3], t.V[15])) =
    some (0, 0x77) ∧ (after (setV (loaded 0x7F01) 15 0xFF)).map (·.V[15]) = some 0 := by decide

/-- Vector DR1. -/
theorem test_ldI : (after (loaded 0xA2F0)).map (·.I) = some 0x2F0 := by decide

/-- Vector DR12. -/
theorem test_cls : (after (setFb (setV (loaded 0x00E0) 15 7) (Vector.replicate 32 1))).map
    (fun t => (t.fb[0], t.fb[31], t.V[15])) = some (0, 0, 7) := by decide

/-- Vector DR4 (glyph 8, vertical wrap), with the default FONT. -/
theorem test_drw_vertical_wrap : (after (setI (setV (loaded 0xD015) 1 30) 0x028)).map
    (fun t => (t.fb[30], t.fb[31], t.fb[0], t.fb[1], t.fb[2], t.V[15])) =
    some (0x0F, 0x09, 0x0F, 0x09, 0x0F, 0) := by decide

/-- Vector DR3 (byte 0xFF at column 60, horizontal wrap) and DR6 (an earlier row's collision is kept). -/
theorem test_drw_wrap_and_collision :
    (after (setMem (setI (setV (loaded 0xD011) 0 60) 0x300) (((loaded 0xD011).mem).write 0x300 0xFF))).map
      (fun t => (t.fb[0], t.V[15])) = some (0xF00000000000000F, 0) ∧
    (after (setFb (loaded 0xD012) (State.reset.fb.set 0 1))).map (fun t => (t.fb[0], t.fb[1], t.V[15])) =
      some (0x0E, 0x09, 1) := by decide

/-- Vectors UN2, UN3, UN4, UN5 and UN6: `pc = 0x202`, `Halted(Unimplemented)`, nothing else. -/
theorem test_unimplemented : ∀ w ∈ [0xC0FF, 0xE19E, 0xE1A1, 0xF307, 0xF30A, 0xF315, 0xF318, 0xF31E, 0xF329, 0xF333,
    0xF355, 0xF365], after (loaded w) =
      some { loaded w with pc := 0x202, status := .halted .unimplemented } := by decide

/-! ### Witnesses: states and operands that meet the hypotheses of the statements, clause by clause, at boundary values -/

/-- A running driver with the word `w` at `pc`. -/
def fetching (pc : Word) (w : Nat) : State := (setPc State.reset pc).withFetchWord 16 w

/-- A driver halted by `k`. -/
def haltedBy (k : StepError) : State := setStatus State.reset (.halted k)

/-- The word a Step of `s` fetches where the fetch passes. -/
def fetched (s : State) : Word := s.mem.read s.pc.toNat ++ s.mem.read (s.pc.toNat + 1)

theorem witness_DecodeOfEncodeIsIdentity :
    (Instr.sys 0xFFF#12).wellFormed = true ∧ (Instr.drw 15 0 15).wellFormed = true := by decide

theorem witness_EncodeOfDecodeKeepsExaminedBits :
    decode 0x9FAF#16 = .ok (.sneReg 15 10) ∧ decode 0x8FA6#16 = .ok (.shr 15) := by decide

/-- One word of each class the class alone selects. -/
theorem witness_ClassAloneSelectsTheHandler :
    ∀ c ∈ [0x1#4, 0x2#4, 0x3#4, 0x4#4, 0x5#4, 0x6#4, 0x7#4, 0x9#4, 0xA#4, 0xB#4, 0xC#4, 0xD#4],
      (c ++ 0xFFF#12).extractLsb' 12 4 = c := by decide

theorem witness_ClassZeroSelectsByTheWholeWord :
    (0x00E0#16).extractLsb' 12 4 = 0x0#4 ∧ (0x00EE#16).extractLsb' 12 4 = 0x0#4 ∧ (0x0FFF#16).extractLsb' 12 4 = 0x0#4 ∧
    0x0FFF#16 ≠ 0x00E0#16 ∧ 0x0FFF#16 ≠ 0x00EE#16 := by decide

theorem witness_ClassEightSelectsByTheLowNibble :
    ∀ n : BitVec 4, (0x8FA#12 ++ n).extractLsb' 12 4 = 0x8#4 ∧ (0x8FA#12 ++ n).extractLsb' 0 4 = n := by decide

/-- A word that decodes, and one whose low byte is no key. -/
theorem witness_ClassESelectsByTheLowByte :
    (0xEF9E#16).extractLsb' 12 4 = 0xE#4 ∧ (0xEFFF#16).extractLsb' 12 4 = 0xE#4 ∧
    decode 0xEF9E#16 = .ok (.skp 15) ∧ (0xEFFF#16).extractLsb' 0 8 ∉ [0x9E#8, 0xA1#8] := by decide

theorem witness_ClassFSelectsByTheLowByte :
    (0xFF65#16).extractLsb' 12 4 = 0xF#4 ∧ (0xFFFF#16).extractLsb' 12 4 = 0xF#4 ∧ decode 0xFF65#16 = .ok (.loadRegs 15) ∧
    (0xFFFF#16).extractLsb' 0 8 ∉
      [0x07#8, 0x0A#8, 0x15#8, 0x18#8, 0x1E#8, 0x29#8, 0x33#8, 0x55#8, 0x65#8] := by decide

/-- The last clause, at the last legal fetch, for a word of each of the three sets. -/
theorem witness_InvalidEncodingsAreExactlyThese :
    (fetching 0xFFE 0x800F).status = .running ∧ (fetching 0xFFE 0x800F).pc.toNat ≤ 0xFFE ∧
    fetched (fetching 0xFFE 0x800F) = 0x800F#16 ∧ decode 0x800F#16 = .error .invalidInstruction ∧
    fetched (fetching 0xFFE 0xE000) = 0xE000#16 ∧ decode 0xE000#16 = .error .invalidInstruction ∧
    fetched (fetching 0xFFE 0xFFFF) = 0xFFFF#16 ∧ decode 0xFFFF#16 = .error .invalidInstruction := by decide

/-- At the last legal fetch, and at an odd `pc`. -/
theorem witness_StepRunsTheDecodedInstruction :
    (fetching 0xFFE 0xD015).status = .running ∧ (fetching 0xFFE 0xD015).pc.toNat ≤ 0xFFE ∧
    decode (fetched (fetching 0xFFE 0xD015)) = .ok (.drw 0 1 5) ∧
    (fetching 0x201 0xD015).status = .running ∧ (fetching 0x201 0xD015).pc.toNat ≤ 0xFFE ∧
    decode (fetched (fetching 0x201 0xD015)) = .ok (.drw 0 1 5) := by decide

theorem witness_FetchIsBigEndianAndNeverWraps :
    (setPc State.reset 0xFFE).pc.toNat ≤ 0xFFE ∧ 0xFFE < (setPc State.reset 0xFFF).pc.toNat ∧
    (setPc State.reset 0xFFF).status = .running := by decide

/-- The first and the last clause by `Unimplemented`; the second by a Load and by Resume; the third at both ends. -/
theorem witness_HaltedDriverStaysHalted :
    (haltedBy .unimplemented).status = .halted .unimplemented ∧
    (serve .resume (haltedBy .unimplemented) = .next ⟨.ok, State.reset⟩) ∧
    (serve (.load [0]) (haltedBy .stackOverflow) = .next ⟨.ok, State.reset⟩) ∧ State.reset.status = .running ∧
    1 ≤ (List.replicate 1 (0 : Byte)).length ∧ (List.replicate 3584 (0 : Byte)).length ≤ 3584 :=
  ⟨rfl, eq_next_of_nextOf (by decide), eq_next_of_nextOf (by decide), rfl,
    by decide, List.length_replicate.le⟩

/-- One state for each clause: an instruction that completes, an unimplemented one, no instruction, a handler that raises. -/
theorem witness_PreIncrementForEveryOutcome :
    (fetching 0xFFE 0x1234).status = .running ∧ (fetching 0xFFE 0x1234).pc.toNat ≤ 0xFFE ∧
    decode (fetched (fetching 0xFFE 0x1234)) = .ok (.jp 0x234) ∧
    (decode (fetched (fetching 0xFFE 0xC0FF)) = .ok (.rnd 0 0xFF) ∧ (Instr.rnd 0 0xFF).unimplemented = true ∧
      (after (fetching 0xFFE 0xC0FF)).map (·.pc) = some 0x1000) ∧
    (decode (fetched (fetching 0xFFE 0x8008)) = .error .invalidInstruction ∧
      (after (fetching 0xFFE 0x8008)).map (·.pc) = some 0x1000) ∧
    (after (fetching 0xFFE 0x00EE)).map (fun t => (t.pc, t.status)) = some (0x1000, .halted .stackUnderflow) := by
  decide

theorem witness_InvalidInstructionStep :
    (fetching 0xFFE 0xE000).status = .running ∧ (fetching 0xFFE 0xE000).pc.toNat ≤ 0xFFE ∧
    decode (fetched (fetching 0xFFE 0xE000)) = .error .invalidInstruction := by decide

theorem witness_UnimplementedStep :
    (fetching 0xFFE 0xF365).status = .running ∧ (fetching 0xFFE 0xF365).pc.toNat ≤ 0xFFE ∧
    decode (fetched (fetching 0xFFE 0xF365)) = .ok (.loadRegs 3) ∧ (Instr.loadRegs 3).unimplemented = true := by decide

theorem witness_StepAnswersByTheStatusItLeaves :
    stepPort (fetching 0x200 0x1234) = .next ⟨.ok, setPc (fetching 0x200 0x1234) 0x234⟩ ∧
    stepPort (haltedBy .stackOverflow) = .next ⟨.err (.ofStep .stackOverflow), haltedBy .stackOverflow⟩ :=
  ⟨eq_next_of_nextOf (by decide), eq_next_of_nextOf (by decide)⟩

/-- A driver halted before, a fetch error, and an error after the pre-increment. -/
theorem witness_ErrorsArePrecise :
    stepPort (haltedBy .stackOverflow) = .next ⟨.err (.ofStep .stackOverflow), haltedBy .stackOverflow⟩ ∧
    stepPort (setPc State.reset 0xFFF) = .next ⟨.err (.ofStep (.addressOutOfRange 0xFFF)),
      setStatus (setPc State.reset 0xFFF) (.halted (.addressOutOfRange 0xFFF))⟩ ∧
    stepPort State.reset = .next ⟨.err (.ofStep .unimplemented),
      setStatus (setPc State.reset 0x202) (.halted .unimplemented)⟩ :=
  ⟨eq_next_of_nextOf (by decide), eq_next_of_nextOf (by decide), eq_next_of_nextOf (by decide)⟩

/-- The hypotheses, and one state for each error kind, at the boundary of its cause. -/
theorem witness_ErrorKindsHaveTheseCauses :
    let full := { fetching 0x200 0x2300 with sp := 32 }
    let draw := setI (fetching 0x200 0xD012) 0xFFF
    (full.status = .running ∧ LegalSp full.sp ∧ (after full).map (·.status) = some (.halted .stackOverflow)) ∧
    (after { fetching 0x200 0x2300 with sp := 30 }).map (·.status) = some .running ∧
    (after (fetching 0x200 0x00EE)).map (·.status) = some (.halted .stackUnderflow) ∧
    (after (fetching 0x200 0x8008)).map (·.status) = some (.halted .invalidInstruction) ∧
    (after (fetching 0x200 0xC0FF)).map (·.status) = some (.halted .unimplemented) ∧
    (after (setPc State.reset 0xFFF)).map (fun t => (t.pc, t.status)) =
      some (0xFFF, .halted (.addressOutOfRange 0xFFF)) ∧
    (after draw).map (fun t => (t.pc, t.status)) = some (0x202, .halted (.addressOutOfRange 0xFFF)) ∧
    (after (setI (fetching 0x200 0xD011) 0xFFF)).map (·.status) = some .running ∧
    nextOf (loadPort [] draw) = some ⟨.err .invalidProgram, draw⟩ := by decide

/-- A legal state at the upper bounds of `sp`, `I` and `pc`. -/
def legalAtBounds : State := { State.reset with sp := 32, I := 0xFFF, pc := 0x10FE }

theorem witness_LegalStatesStayLegal : Legal State.reset ∧ Legal legalAtBounds ∧
    step State.reset = .next (setStatus (setPc State.reset 0x202) (.halted .unimplemented)) :=
  ⟨⟨by decide, by decide, by decide, by decide, by decide⟩, ⟨by decide, by decide, by decide, by decide, by decide⟩,
    eq_next_of_nextOf (by decide)⟩

theorem witness_LoadLeavesALegalState :
    loadPort [0x12, 0x00] (haltedBy .stackOverflow) = .next ⟨.ok, loaded 0x1200⟩ := eq_next_of_nextOf (by decide)

theorem witness_LegalStepAlwaysCompletes : Legal legalAtBounds :=
  ⟨by decide, by decide, by decide, by decide, by decide⟩

/-- Odd inside the range, and even past its end. -/
theorem witness_IllegalStackPointerStops : ¬ LegalSp 31 ∧ ¬ LegalSp 33 ∧ ¬ LegalSp 34 := by decide

/-- Each clause: the full and the empty stack, a call and a return at a legal `sp`, and entries at the top and above. -/
theorem witness_StackDisciplineHolds :
    ({ State.reset with sp := 32 } : State).sp = 32 ∧ State.reset.sp = 0 ∧
    (LegalSp 30 ∧ nextOf (exec (.call 0x300) { State.reset with sp := 30 }) =
      some { State.reset with sp := 32, pc := 0x300, stack := State.reset.stack.set 15 0x200 }) ∧
    nextOf (exec .ret { State.reset with sp := 2 }) = some { State.reset with pc := 0 } ∧
    (30#16).toNat ≤ 2 * (15 : Fin 16).val ∧ (0#16).toNat ≤ 2 * (0 : Fin 16).val := by decide

theorem witness_IndexRegisterWrittenByOneReadByOne :
    nextOf (exec (.ldI 0xFFF) State.reset) = some { State.reset with I := 0xFFF } ∧
    nextOf (exec (.jp 0x300) State.reset) = some { State.reset with pc := 0x300 } ∧
    (∀ x y n, Instr.jp 0x300 ≠ .drw x y n) ∧
    legalAtBounds.I.toNat ≤ 0xFFF ∧ (after legalAtBounds).isSome = true := by
  refine ⟨by decide, by decide, ?_, by decide, by decide⟩
  intro x y n h
  cases h

theorem witness_FlagRegisterWritersAndReaders :
    (nextOf (exec (.or 14 15) (loaded 0))).isSome = true ∧ writesFlag (.or 14 15) = false ∧
    destReg (.or 14 15) ≠ some 15 ∧
    (nextOf (exec (.addReg 15 15) State.reset)).map (·.status) = some .running ∧
    State.reset.status = .running ∧ writesFlag (.addReg 15 15) = true ∧
    (15 : Reg) ∉ readRegs (.addReg 0 14) ∧ (15 : Reg) ∉ readRegs (.ldImm 15 7) := by decide

/-- An instruction for each clause that it must leave a field alone, and one that halts. -/
theorem witness_OnlyTheNamedInstructionsWriteEachField :
    (nextOf (exec (.addReg 0 1) State.reset)).isSome = true ∧ destReg (.addReg 0 1) ≠ some 14 ∧
    (writesFlag (.addReg 0 1) = true ∧ (14 : Reg) ≠ 15) ∧ (∀ nnn, Instr.addReg 0 1 ≠ .ldI nnn) ∧
    (∀ nnn, Instr.addReg 0 1 ≠ .call nnn) ∧ Instr.addReg 0 1 ≠ .ret ∧ Instr.addReg 0 1 ≠ .cls ∧
    (∀ x y n, Instr.addReg 0 1 ≠ .drw x y n) ∧
    (nextOf (exec .ret State.reset)).map (·.status) ≠ some State.reset.status := by
  refine ⟨by decide, by decide, by decide, ?_, ?_, by decide, by decide, ?_, by decide⟩ <;> intros <;> exact nofun

theorem witness_UnreadRegistersHaveNoInfluence :
    (0 : Reg) ∉ readRegs (.ldReg 0 15) ∧ (15 : Reg) ∉ readRegs (.shr 0) ∧ (1 : Reg) ∉ readRegs (.jpV0 0x100) := by
  decide

theorem witness_NoStepWritesMemory :
    step (fetching 0x200 0x1234) = .next (setPc (fetching 0x200 0x1234) 0x234) := eq_next_of_nextOf (by decide)

theorem witness_FontStaysIntact : FontIntact State.reset ∧
    serve (.load [0]) State.reset = .next ⟨.ok, State.reset⟩ :=
  ⟨fun _ _ => rfl, eq_next_of_nextOf (by decide)⟩

/-- The hypothesis of `Selects`, in JumpSetsPc, IndexedJumpAddsV0, CallPushesTheReturnAddress, ReturnPopsTheTopEntry,
SkipsCompareAndAdvance, LoadsAndAddImmediateWriteOneRegister, LogicWritesOneRegisterAndNoFlag, AddSetsCarry,
SubtractSetsNotBorrow, ReverseSubtractMirrorsSubtract, ShiftsCaptureTheBitShiftedOut, LoadIndexSetsI,
ClearScreenZeroesEveryScanline and DrawXorsTheSpritePixelByPixel: one word for each row, its free bits all 1. -/
theorem witness_Selects :
    (∀ c ∈ [0x1#4, 0x2#4, 0x3#4, 0x4#4, 0x5#4, 0x6#4, 0x7#4, 0x9#4, 0xA#4, 0xB#4, 0xD#4],
      (c ++ 0xFFF#12) &&& 0xF000#16 = c ++ 0#12) ∧
    (∀ n ∈ [0x0#4, 0x1#4, 0x2#4, 0x3#4, 0x4#4, 0x5#4, 0x6#4, 0x7#4, 0xE#4],
      (0x8FF#12 ++ n) &&& 0xF00F#16 = 0x800#12 ++ n) ∧
    0x00E0#16 &&& 0xFFFF#16 = 0x00E0#16 ∧ 0x00EE#16 &&& 0xFFFF#16 = 0x00EE#16 := by decide

/-- The largest target, and the smallest that the next fetch reports. -/
theorem witness_IndexedJumpAddsV0 :
    (nextOf (exec (.jpV0 0xFFF) (setV State.reset 0 0xFF))).map (fun t => (t.pc, t.status)) =
      some (0x10FE, .running) ∧
    (nextOf (exec (.jpV0 0xFFF) State.reset)).map (fun t => (t.pc, t.status)) = some (0xFFF, .running) := by decide

theorem witness_CallPushesTheReturnAddress :
    (0#16).toNat = 2 * (0 : Fin 16).val ∧ (30#16).toNat = 2 * (15 : Fin 16).val ∧
    ({ State.reset with sp := 32 } : State).sp = 32 := by decide

theorem witness_ReturnPopsTheTopEntry :
    (2#16).toNat = 2 * ((0 : Fin 16).val + 1) ∧ (32#16).toNat = 2 * ((15 : Fin 16).val + 1) ∧
    State.reset.sp = 0 := by decide

theorem witness_CallThenReturnRestoresPc : (LegalSp 0 ∧ (0#16).toNat < 32) ∧ LegalSp 30 ∧ (30#16).toNat < 32 := by
  decide

/-- `x` is not VF, and `j` is neither. -/
theorem witness_AddSetsCarry : (14 : Reg) ≠ 15 ∧ (13 : Reg) ≠ 14 ∧ (13 : Reg) ≠ 15 := by decide

theorem witness_SubtractSetsNotBorrow : (0 : Reg) ≠ 15 ∧ (1 : Reg) ≠ 0 ∧ (1 : Reg) ≠ 15 := by decide

theorem witness_ReverseSubtractMirrorsSubtract : (14 : Reg) ≠ 15 ∧ (0 : Reg) ≠ 14 ∧ (0 : Reg) ≠ 15 := by decide

theorem witness_ShiftsCaptureTheBitShiftedOut : (0 : Reg) ≠ 15 ∧ (14 : Reg) ≠ 0 ∧ (14 : Reg) ≠ 15 := by decide

/-- Two rows from the last byte on, and fifteen from the first address that is too high. -/
theorem witness_DrawPastMemoryRaises :
    (1 ≤ (2 : Fin 16).val ∧ 0xFFF < (0xFFF#16).toNat + (2 : Fin 16).val - 1) ∧
    1 ≤ (15 : Fin 16).val ∧ 0xFFF < (0xFF2#16).toNat + (15 : Fin 16).val - 1 := by decide

/-- No row whatever `I`, one row at the last byte, fifteen rows that end there. -/
theorem witness_DrawXorsTheSpritePixelByPixel :
    (1 ≤ (0 : Fin 16).val → (0xFFFF#16).toNat + (0 : Fin 16).val - 1 ≤ 0xFFF) ∧
    (1 ≤ (1 : Fin 16).val → (0xFFF#16).toNat + (1 : Fin 16).val - 1 ≤ 0xFFF) ∧
    (1 ≤ (15 : Fin 16).val → (0xFF1#16).toNat + (15 : Fin 16).val - 1 ≤ 0xFFF) ∧ (14 : Reg) ≠ 15 := by decide

theorem witness_DrawTwiceRestoresTheScreen : (14 : Reg) ≠ 15 ∧ (0 : Reg) ≠ 15 ∧
    (1 ≤ (15 : Fin 16).val → (0xFF1#16).toNat + (15 : Fin 16).val - 1 ≤ 0xFFF) := by decide

theorem witness_LoadInitialisesAndCopiesTheImage :
    (1 ≤ [(0x12 : Byte)].length ∧ [(0x12 : Byte)].length ≤ 3584) ∧
    1 ≤ (List.replicate 3584 (0x12 : Byte)).length ∧ (List.replicate 3584 (0x12 : Byte)).length ≤ 3584 := by
  rw [List.length_replicate]; decide

theorem witness_OverlongLoadIsRefused : 3584 < (List.replicate 3585 (0x12 : Byte)).length := by
  rw [List.length_replicate]; decide

theorem witness_ResumeOnlyFromUnimplemented :
    State.reset.status = .running ∧ (haltedBy .unimplemented).status = .halted .unimplemented ∧
    (StepError.stackOverflow ≠ .unimplemented ∧ (haltedBy .stackOverflow).status = .halted .stackOverflow) ∧
    serve (.load [0]) (haltedBy .stackOverflow) = .next ⟨.ok, State.reset⟩ ∧
    State.reset.status ≠ .halted .stackOverflow :=
  ⟨rfl, rfl, ⟨nofun, rfl⟩, eq_next_of_nextOf (by decide), nofun⟩

/-- The font bytes and the first byte past them (R147). -/
theorem witness_InitialiseSetsEveryPieceOfState : 79 < 80 ∧ 80 ≤ 80 ∧ FONT[79]? = some 0x80 := by decide

end Sys2Proof.Tests
end

section
/-! PROOFS. The flag register (R20) and the Framebuffer read (R34). Which registers an instruction leaves and which ones
have no influence on it are stated for every register; VF is the instance 15. -/

namespace Sys2Proof.Machine

/-! ### Writing a register commutes with the other updates -/

section Commute
variable (s : State) (j : Reg) (v : Byte)

@[simp] theorem setI_setV (w : Word) : setI (setV s j v) w = setV (setI s w) j v := rfl
@[simp] theorem setPc_setV (w : Word) : setPc (setV s j v) w = setV (setPc s w) j v := rfl
@[simp] theorem setFb_setV (rows : Vector Scanline 32) : setFb (setV s j v) rows = setV (setFb s rows) j v := rfl
@[simp] theorem advancePc_setV : advancePc (setV s j v) = setV (advancePc s) j v := rfl
@[simp] theorem pushStack_setV (w : Word) : pushStack (setV s j v) w = setV (pushStack s w) j v := rfl
@[simp] theorem popStack_setV : popStack (setV s j v) = setV (popStack s) j v := rfl
@[simp] theorem stackAtSp_setV : stackAtSp (setV s j v) = stackAtSp s := rfl
@[simp] theorem raise_setV (k : StepError) : raise k (setV s j v) = setV (raise k s) j v := rfl
@[simp] theorem spriteBytes_setV (base n : Nat) : spriteBytes (setV s j v) base n = spriteBytes s base n := rfl

@[simp] theorem setV_setV_same (w : Byte) : setV (setV s j v) j w = setV s j w := by simp [setV]

theorem setV_setV_comm {x : Reg} (h : x ≠ j) (w : Byte) : setV (setV s j v) x w = setV (setV s x w) j v := by
  have h' : j.val ≠ x.val := fun e => h (Fin.ext e.symm)
  simp only [setV, Vector.set_comm _ _ h']

/-- An earlier value of `V[j]` does not outlast a write of any register followed by one of `V[j]`. -/
theorem setV_setV_setV (x : Reg) (w u : Byte) : setV (setV (setV s j v) x w) j u = setV (setV s x w) j u := by
  by_cases h : x = j
  · simp [h]
  · simp [setV_setV_comm s j v h]

end Commute

/-! ### Registers an instruction does not read -/

/-- An outcome without its value of `V[j]`. -/
def forgetV (j : Reg) (o : Host.Outcome State Fault Refusal) : Host.Outcome State Fault Refusal :=
  mapNext (fun t => setV t j 0) o

theorem forgetV_ite_congr {j : Reg} {c d : Prop} [Decidable c] [Decidable d]
    {o o' p p' : Host.Outcome State Fault Refusal} (hcd : c ↔ d) (ho : forgetV j o = forgetV j o')
    (hp : forgetV j p = forgetV j p') :
    forgetV j (if c then o else p) = forgetV j (if d then o' else p') := by
  by_cases h : d <;> simp [hcd, h, ho, hp]

section Forget
variable (s : State) (j : Reg) (v : Byte)

@[simp] theorem forgetV_next_setV : forgetV j (.next (setV s j v)) = forgetV j (.next s) := by
  simp [forgetV, mapNext]

@[simp] theorem forgetV_skipIf (c : Bool) : forgetV j (skipIf c (setV s j v)) = forgetV j (skipIf c s) := by
  cases c <;> simp [skipIf]

@[simp] theorem forgetV_writeResult (x : Reg) (r : Byte) :
    forgetV j (writeResult x r (setV s j v)) = forgetV j (writeResult x r s) := by
  simp [forgetV, mapNext, writeResult, setV_setV_setV]

@[simp] theorem forgetV_next_setFlag (f : Bool) :
    forgetV j (.next (setFlag (setV s j v) f)) = forgetV j (.next (setFlag s f)) :=
  forgetV_writeResult s j v .vf (flagByte f)

@[simp] theorem forgetV_writeResultFlag (x : Reg) (r : Byte) (f : Bool) :
    forgetV j (writeResultFlag x r f (setV s j v)) = forgetV j (writeResultFlag x r f s) := by
  by_cases h : x = j
  · simp [writeResultFlag, h]
  · simp [writeResultFlag, setV_setV_comm s j v h]

@[simp] theorem forgetV_execCall (nnn : Addr) : forgetV j (execCall nnn (setV s j v)) = forgetV j (execCall nnn s) :=
  forgetV_ite_congr .rfl (by simp) (forgetV_ite_congr .rfl (by simp) rfl)

@[simp] theorem forgetV_execRet : forgetV j (execRet (setV s j v)) = forgetV j (execRet s) :=
  forgetV_ite_congr .rfl (by simp) (forgetV_ite_congr .rfl (by simp) rfl)

theorem forgetV_execDrw {x y : Reg} (n : Fin 16) (hx : getV (setV s j v) x = getV s x)
    (hy : getV (setV s j v) y = getV s y) :
    forgetV j (execDrw x y n (setV s j v)) = forgetV j (execDrw x y n s) :=
  forgetV_ite_congr .rfl (by simp) (by simp [hx, hy])

theorem forgetV_exec_of_unimplemented {i : Instr} (h : i.unimplemented = true) :
    forgetV j (exec i (setV s j v)) = forgetV j (exec i s) := by
  simp [exec_of_unimplemented h]

end Forget

/-- A register an instruction does not read influences nothing but itself (the column "read by" of spec/10_state.md). -/
theorem forgetV_exec_of_unread {i : Instr} {j : Reg} (h : j ∉ readRegs i) (s : State) (v : Byte) :
    forgetV j (exec i (setV s j v)) = forgetV j (exec i s) := by
  have reads : ∀ x ∈ readRegs i, getV (setV s j v) x = getV s x := fun x hx =>
    getV_setV_ne s j x v fun e => h (e ▸ hx)
  cases i with
  | call nnn => exact forgetV_execCall s j v nnn
  | ret => exact forgetV_execRet s j v
  | drw x y n => exact forgetV_execDrw s j v n (reads x (by simp [readRegs])) (reads y (by simp [readRegs]))
  | seImm | sneImm | seReg | sneReg =>
    simp only [readRegs, List.forall_mem_cons] at reads
    simp [exec, execSeImm, execSneImm, execSeReg, execSneReg, reads]
  | ldImm | addImm | ldReg | or | and | xor =>
    simp only [readRegs, List.forall_mem_cons] at reads
    simp [exec, execLdImm, execAddImm, execLdReg, execOr, execAnd, execXor, reads]
  | addReg | sub | shr | subn | shl =>
    simp only [readRegs, List.forall_mem_cons] at reads
    simp [exec, execAddReg, execSub, execShr, execSubn, execShl, reads]
  | cls => simp [exec, execCls]
  | jp => simp [exec, execJp]
  | ldI => simp [exec, execLdI]
  | jpV0 => simp [exec, execJpV0, reads .v0 (by simp [readRegs])]
  | sys | rnd | skp | sknp | ldVxDt | ldVxK | ldDtVx | ldStVx | addIVx | ldFVx | ldBVx | storeRegs | loadRegs =>
    exact forgetV_exec_of_unimplemented s j v rfl

/-! ### Registers an instruction does not write -/

theorem getV_setFlag_ne (s : State) {j : Reg} (h : j ≠ 15) (f : Bool) : getV (setFlag s f) j = getV s j :=
  getV_setV_ne s .vf j (flagByte f) h

/-- Every register but the destination, and VF where the flag is a side effect, is as before (the column "written by" of
spec/10_state.md). -/
theorem effect_getV_of_unwritten {s t : State} {i : Instr} {j : Reg} (h : Effect s i t) (hd : destReg i ≠ some j)
    (hf : writesFlag i = true → j ≠ 15) : getV t j = getV s j := by
  cases h with
  | write _ x v hx => exact getV_setV_ne s x j v fun e => hd (e ▸ hx)
  | writeFlag _ x v f hx hw =>
    rw [getV_setFlag_ne _ (hf hw)]
    exact getV_setV_ne s x j v fun e => hd (e ▸ hx)
  | draw x y n rows hit => exact getV_setFlag_ne _ (hf rfl) hit
  | skip _ taken => cases taken <;> rfl
  | _ => rfl

/-! ### The flag side effect (R20) -/

/-- An instruction with the flag as a side effect ends by writing the flag, or raises. -/
theorem effect_of_writesFlag {i : Instr} {s t : State} (h : Effect s i t) (hw : writesFlag i = true) :
    (∃ u f, t = setFlag u f) ∨ ∃ k, t = raise k s := by
  cases h with
  | writeFlag | draw => exact .inl ⟨_, _, rfl⟩
  | drawOutOfRange | unimplemented => exact .inr ⟨_, rfl⟩
  | write _ _ _ _ hf => simp [hf] at hw
  | skip _ _ hi => obtain ⟨_, _, rfl | rfl⟩ | ⟨_, _, rfl | rfl⟩ := hi <;> cases hw
  | _ => cases hw

/-- The flag a completing instruction writes as a side effect is 0 or 1. -/
theorem effect_flag_zero_or_one {i : Instr} {s t : State} (h : Effect s i t) (ht : t.status = .running)
    (hw : writesFlag i = true) : getV t .vf = 0 ∨ getV t .vf = 1 := by
  obtain ⟨u, f, rfl⟩ | ⟨k, rfl⟩ := effect_of_writesFlag h hw
  · rw [setFlag, getV_setV_same]
    exact flagByte_zero_or_one f
  · cases ht

/-- Settles O27: the rules for unwritten and for unread registers, taken at VF, and the flag side effect. -/
theorem flagRegisterWritersAndReaders : Obligations.FlagRegisterWritersAndReaders := by
  refine ⟨fun i s t h hw hd => ?_, fun i s t _ h ht hw => ?_, fun i s v h => ?_, ?_⟩
  · exact effect_getV_of_unwritten (effect_of_exec h) hd (by simp [hw])
  · exact effect_flag_zero_or_one (effect_of_exec h) ht hw
  · exact forgetV_exec_of_unread h s v
  · simp

/-! ### The Framebuffer read (R34) -/

/-- Settles O58: the port's reply holds the state it was asked in. -/
theorem framebufferReadChangesNothing : Obligations.FramebufferReadChangesNothing := fun _ => rfl

end Sys2Proof.Machine
end

section
/-! PROOFS. What the class of a word selects (R58 to R62, R75): one equation of `decode` for each class, and the
statements that follow from the class of a word. -/

namespace Sys2Proof

/-! ### The equation of the decoder at each class -/

section DecodeByClass
variable {w : Word}

theorem decode_eq_selectClass0 (h : (fieldsOf w).cls = 0x0#4) : decode w = selectClass0 w (fieldsOf w) := by
  simp [decode, h]

theorem decode_eq_jp (h : (fieldsOf w).cls = 0x1#4) : decode w = .ok (.jp (fieldsOf w).nnn) := by simp [decode, h]

theorem decode_eq_call (h : (fieldsOf w).cls = 0x2#4) : decode w = .ok (.call (fieldsOf w).nnn) := by simp [decode, h]

theorem decode_eq_seImm (h : (fieldsOf w).cls = 0x3#4) : decode w = .ok (.seImm (fieldsOf w).x (fieldsOf w).kk) := by
  simp [decode, h]

theorem decode_eq_sneImm (h : (fieldsOf w).cls = 0x4#4) : decode w = .ok (.sneImm (fieldsOf w).x (fieldsOf w).kk) := by
  simp [decode, h]

theorem decode_eq_seReg (h : (fieldsOf w).cls = 0x5#4) : decode w = .ok (.seReg (fieldsOf w).x (fieldsOf w).y) := by
  simp [decode, h]

theorem decode_eq_ldImm (h : (fieldsOf w).cls = 0x6#4) : decode w = .ok (.ldImm (fieldsOf w).x (fieldsOf w).kk) := by
  simp [decode, h]

theorem decode_eq_addImm (h : (fieldsOf w).cls = 0x7#4) : decode w = .ok (.addImm (fieldsOf w).x (fieldsOf w).kk) := by
  simp [decode, h]

theorem decode_eq_selectClass8 (h : (fieldsOf w).cls = 0x8#4) : decode w = selectClass8 (fieldsOf w) := by
  simp [decode, h]

theorem decode_eq_sneReg (h : (fieldsOf w).cls = 0x9#4) : decode w = .ok (.sneReg (fieldsOf w).x (fieldsOf w).y) := by
  simp [decode, h]

theorem decode_eq_ldI (h : (fieldsOf w).cls = 0xA#4) : decode w = .ok (.ldI (fieldsOf w).nnn) := by simp [decode, h]

theorem decode_eq_jpV0 (h : (fieldsOf w).cls = 0xB#4) : decode w = .ok (.jpV0 (fieldsOf w).nnn) := by simp [decode, h]

theorem decode_eq_rnd (h : (fieldsOf w).cls = 0xC#4) : decode w = .ok (.rnd (fieldsOf w).x (fieldsOf w).kk) := by
  simp [decode, h]

theorem decode_eq_drw (h : (fieldsOf w).cls = 0xD#4) :
    decode w = .ok (.drw (fieldsOf w).x (fieldsOf w).y (fieldsOf w).n) := by
  simp [decode, h]

theorem decode_eq_selectClassE (h : (fieldsOf w).cls = 0xE#4) : decode w = selectClassE (fieldsOf w) := by
  simp [decode, h]

theorem decode_eq_selectClassF (h : (fieldsOf w).cls = 0xF#4) : decode w = selectClassF (fieldsOf w) := by
  simp [decode, h]

end DecodeByClass

/-! ### The statements -/

/-- Settles O5: the equations of the twelve classes, whose fields are the cuts of R55. -/
theorem classAloneSelectsTheHandler : Obligations.ClassAloneSelectsTheHandler := fun _ =>
  ⟨decode_eq_jp, decode_eq_call, decode_eq_seImm, decode_eq_sneImm, decode_eq_seReg, decode_eq_ldImm,
    decode_eq_addImm, decode_eq_sneReg, decode_eq_ldI, decode_eq_jpV0, decode_eq_rnd, decode_eq_drw⟩

/-- Settles O4: each word by the equation of its class; in classes 0x0, 0x8, 0xE and 0xF the nested lookup is
evaluated at the word's own key. -/
theorem specWordsDecodeAsTheSpecSays : Obligations.SpecWordsDecodeAsTheSpecSays :=
  ⟨(decode_eq_selectClass0 rfl).trans rfl, decode_eq_jp rfl, decode_eq_seImm rfl, decode_eq_seReg rfl,
    (decode_eq_selectClass8 rfl).trans rfl, decode_eq_drw rfl, (decode_eq_selectClassE rfl).trans rfl,
    (decode_eq_selectClassF rfl).trans rfl, (decode_eq_selectClass8 rfl).trans rfl⟩

end Sys2Proof
end

section
/-! PROOFS. The Step (spec/40_pipeline.md): the pre-increment and the two outcomes that select no executed handler (R76,
R78, R79), and the answer of the Step port as a function of the status it leaves (R72, R80, R133). -/

namespace Sys2Proof.Machine

/-! ### The answer of the Step port -/

theorem responseOf_of_halted {s : State} {k : StepError} (h : s.status = .halted k) :
    responseOf s = .err (.ofStep k) := by
  simp only [responseOf, h]

theorem responseOf_of_running {s : State} (h : s.status = .running) : responseOf s = .ok := by
  simp only [responseOf, h]

theorem responseOf_eq_ok_iff (s : State) : responseOf s = .ok ↔ s.status = .running := by
  rcases status_running_or_halted s with hr | ⟨k, hk⟩
  · simp [responseOf_of_running hr, hr]
  · simp [responseOf_of_halted hk, hk]

theorem responseOf_eq_err_iff (s : State) (k : StepError) :
    responseOf s = .err (.ofStep k) ↔ s.status = .halted k := by
  rcases status_running_or_halted s with hr | ⟨k', hk⟩
  · simp [responseOf_of_running hr, hr]
  · simp [responseOf_of_halted hk, hk]

theorem responseOf_ok_or_err (s : State) : responseOf s = .ok ∨ ∃ k, responseOf s = .err (.ofStep k) :=
  (status_running_or_halted s).imp responseOf_of_running fun ⟨k, hk⟩ => ⟨k, responseOf_of_halted hk⟩

/-- The port answers for the state the Step leaves. -/
theorem stepPort_of_step {s t : State} (h : step s = .next t) : stepPort s = .next ⟨responseOf t, t⟩ := by
  simp only [stepPort, h, replyOf]

theorem reply_of_stepPort {s : State} {p : Reply} (h : stepPort s = .next p) :
    step s = .next p.state ∧ p.response = responseOf p.state := by
  unfold stepPort at h
  cases hs : step s <;> rw [hs] at h <;> cases h
  exact ⟨rfl, rfl⟩

/-- Settles O17: the reply's response is `responseOf` of its state. -/
theorem stepAnswersByTheStatusItLeaves : Obligations.StepAnswersByTheStatusItLeaves := by
  intro s p h
  obtain ⟨-, hp⟩ := reply_of_stepPort h
  rw [hp]
  exact ⟨responseOf_eq_ok_iff _, responseOf_eq_err_iff _, responseOf_ok_or_err _⟩

/-! ### The pre-increment, and the outcomes that only raise -/

theorem step_of_unimplemented {s : State} {i : Instr} (hr : s.status = .running) (hp : s.pc.toNat ≤ 0xFFE)
    (hd : decode (s.mem.read s.pc.toNat ++ s.mem.read (s.pc.toNat + 1)) = .ok i) (hu : i.unimplemented = true) :
    step s = .next (raise .unimplemented (advancePc s)) :=
  (step_of_decoded hr hp hd).trans (exec_of_unimplemented hu _)

/-- An instruction that halts a running driver changes nothing but the status (R15). -/
theorem eq_raise_of_exec_halts {i : Instr} {s t : State} {k : StepError} (hr : s.status = .running)
    (h : exec i s = .next t) (ht : t.status = .halted k) : t = raise k s := by
  rcases effect_status (effect_of_exec h) with hst | ⟨k', rfl⟩
  · rw [hst, hr] at ht
    cases ht
  · cases ht
    rfl

/-- A Step that passes the fetch and halts a running driver leaves the pre-increment and the status, nothing else. -/
theorem eq_raise_advancePc_of_step_halts {s t : State} {k : StepError} (hr : s.status = .running)
    (hp : s.pc.toNat ≤ 0xFFE) (h : step s = .next t) (ht : t.status = .halted k) : t = raise k (advancePc s) := by
  rcases hd : decode (s.mem.read s.pc.toNat ++ s.mem.read (s.pc.toNat + 1)) with e | i
  · rw [step_of_invalid hr hp hd] at h
    cases h
    cases ht
    rfl
  · rw [step_of_decoded hr hp hd] at h
    exact eq_raise_of_exec_halts (s := advancePc s) hr h ht

/-- Settles O14: each outcome of the selection runs on `advancePc s`, and a raise leaves that state's `pc`. -/
theorem preIncrementForEveryOutcome : Obligations.PreIncrementForEveryOutcome := by
  refine fun s hr hp => ⟨fun i hd => step_of_decoded hr hp hd, fun i t hd hu h => ?_, fun e t hd h => ?_,
    fun t k h ht => ?_⟩
  · cases (step_of_unimplemented hr hp hd hu).symm.trans h
    rfl
  · cases (step_of_invalid hr hp hd).symm.trans h
    rfl
  · rw [eq_raise_advancePc_of_step_halts hr hp h ht, raise_pc, advancePc_pc]

/-- Settles O15: the Step's one raise, answered by the status it leaves. -/
theorem invalidInstructionStep : Obligations.InvalidInstructionStep := fun _ hr hp hd =>
  stepPort_of_step (step_of_invalid hr hp hd)

/-- Settles O16: the handler's one raise, answered by the status it leaves. -/
theorem unimplementedStep : Obligations.UnimplementedStep := fun _ _ hr hp hd hu =>
  stepPort_of_step (step_of_unimplemented hr hp hd hu)

end Sys2Proof.Machine
end

section
/-! PROOFS. The jumps of spec/41_control_flow.md: the class nibble alone fixes a word under the mask 0xF000 (R58, R63), a
jump's handler is one write of `pc` (R85, R86), and a target above 0xFFE is reported by the next fetch (R73). -/

namespace Sys2Proof.Machine

/-! ### Words whose fixed bits are the class nibble -/

theorem fieldsOf_cls_of_and_F000 {w : Word} {c : BitVec 4} (h : w &&& 0xF000#16 = c ++ 0#12) :
    (fieldsOf w).cls = c := by
  have ones : BitVec.extractLsb' 12 4 0xF000#16 = 0xF#4 := by decide
  calc (fieldsOf w).cls
      = BitVec.extractLsb' 12 4 (w &&& 0xF000#16) := by rw [BitVec.extractLsb'_and, ones, and_all4]; rfl
    _ = c := by rw [h, extract_cls_nnn]

/-- A decoder equation at a class gives the row of R63 whose mask is the class nibble. -/
theorem selects_of_class (c : BitVec 4) {build : Fields → Instr}
    (h : ∀ {w : Word}, (fieldsOf w).cls = c → decode w = .ok (build (fieldsOf w))) :
    Selects 0xF000 (c ++ 0#12) build := fun _ hw => h (fieldsOf_cls_of_and_F000 hw)

/-! ### What the jumps' handlers do -/

theorem exec_jp (nnn : Addr) (s : State) : exec (.jp nnn) s = .next (setPc s (addrOperand nnn)) := rfl

theorem exec_jpV0 (nnn : Addr) (s : State) :
    exec (.jpV0 nnn) s = .next (setPc s (indexedTarget nnn (getV s .v0))) := rfl

/-- The highest target of BNNN is 0xFFF + 0xFF. -/
theorem toNat_indexedTarget_le (nnn : Addr) (v : Byte) : (indexedTarget nnn v).toNat ≤ 0x10FE := by
  rw [toNat_indexedTarget]
  omega

/-! ### The statements -/

/-- Settles O32: the decoder's equation at class 0x1, and the handler's one write. -/
theorem jumpSetsPc : Obligations.JumpSetsPc := ⟨selects_of_class 0x1#4 decode_eq_jp, exec_jp⟩

/-- Settles O33: the decoder's equation at class 0xB, the handler's one write, the exact sum, and the fetch error of a
`pc` above 0xFFE. -/
theorem indexedJumpAddsV0 : Obligations.IndexedJumpAddsV0 :=
  ⟨selects_of_class 0xB#4 decode_eq_jpV0, fun nnn s => ⟨_, exec_jpV0 nnn s, rfl, toNat_indexedTarget nnn _,
    toNat_indexedTarget_le nnn _, step_of_fetch_error⟩⟩

end Sys2Proof.Machine
end

section
/-! PROOFS. The skips of spec/42_skip.md: a handler's Boolean test is the condition of its rule (R89 to R92), and a taken
skip is one more advance of `pc` (R66, R76). -/

namespace Sys2Proof.Machine

/-! ### What the skips' handlers do -/

/-- The shared skip, by the condition that its Boolean test decides. -/
theorem skipIf_eq_of_iff {c : Bool} {p : Prop} [Decidable p] (h : c = true ↔ p) (s : State) :
    skipIf c s = .next (if p then advancePc s else s) := by
  simp only [skipIf, h]

theorem exec_seImm (x : Reg) (kk : Byte) (s : State) :
    exec (.seImm x kk) s = .next (if getV s x = kk then advancePc s else s) := skipIf_eq_of_iff beq_iff_eq s

theorem exec_sneImm (x : Reg) (kk : Byte) (s : State) :
    exec (.sneImm x kk) s = .next (if getV s x ≠ kk then advancePc s else s) := skipIf_eq_of_iff bne_iff_ne s

theorem exec_seReg (x y : Reg) (s : State) :
    exec (.seReg x y) s = .next (if getV s x = getV s y then advancePc s else s) := skipIf_eq_of_iff beq_iff_eq s

theorem exec_sneReg (x y : Reg) (s : State) :
    exec (.sneReg x y) s = .next (if getV s x ≠ getV s y then advancePc s else s) := skipIf_eq_of_iff bne_iff_ne s

/-! ### The statement -/

/-- Settles O37: the decoder's equations at classes 0x3, 0x4, 0x5 and 0x9, which leave the low nibble of a register skip
unexamined, and the four handlers, each the shared skip on its own condition. -/
theorem skipsCompareAndAdvance : Obligations.SkipsCompareAndAdvance :=
  ⟨selects_of_class 0x3#4 decode_eq_seImm, selects_of_class 0x4#4 decode_eq_sneImm,
    selects_of_class 0x5#4 decode_eq_seReg, selects_of_class 0x9#4 decode_eq_sneReg, fun x y kk s =>
      ⟨exec_seImm x kk s, exec_sneImm x kk s, exec_seReg x y s, exec_sneReg x y s⟩⟩

end Sys2Proof.Machine
end

section
/-! PROOFS. Register load and ALU of spec/43_register_alu.md: class 0x8 with its low nibble fixes a word under the mask
0xF00F (R60, R63), every instruction ends in one of the two shared writes (R93), and the byte results and flags are
read in exact arithmetic (R100, R101). -/

namespace Sys2Proof.Machine

/-! ### Words whose fixed bits are class 0x8 and the low nibble -/

theorem fieldsOf_cls_of_and_F00F {w : Word} {n : BitVec 4} (h : w &&& 0xF00F#16 = 0x800#12 ++ n) :
    (fieldsOf w).cls = 0x8#4 := by
  have high : ∀ n : BitVec 4, (0x800#12 ++ n) &&& 0xF000#16 = 0x8#4 ++ 0#12 := by decide
  apply fieldsOf_cls_of_and_F000
  calc w &&& 0xF000#16
      = w &&& 0xF00F#16 &&& 0xF000#16 := (BitVec.and_assoc w 0xF00F#16 0xF000#16).symm
    _ = 0x8#4 ++ 0#12 := by rw [h, high]

theorem fieldsOf_n_of_and_F00F {w : Word} {n : BitVec 4} (h : w &&& 0xF00F#16 = 0x800#12 ++ n) :
    (fieldsOf w).n = n.toFin := by
  have ones : BitVec.extractLsb' 0 4 0xF00F#16 = 0xF#4 := by decide
  have low : ∀ n : BitVec 4, BitVec.extractLsb' 0 4 (0x800#12 ++ n) = n := by decide
  calc (fieldsOf w).n
      = (BitVec.extractLsb' 0 4 (w &&& 0xF00F#16)).toFin := by rw [BitVec.extractLsb'_and, ones, and_all4]; rfl
    _ = n.toFin := by rw [h, low]

/-- The nested lookup at a low nibble gives the row of R63 whose mask is class 0x8 and that nibble. -/
theorem selects_of_class8 (n : BitVec 4) {build : Fields → Instr}
    (h : ∀ {f : Fields}, f.n = n.toFin → selectClass8 f = .ok (build f)) : Selects 0xF00F (0x800#12 ++ n) build :=
  fun _ hw => (decode_eq_selectClass8 (fieldsOf_cls_of_and_F00F hw)).trans (h (fieldsOf_n_of_and_F00F hw))

section SelectClass8
variable {f : Fields}

theorem selectClass8_eq_ldReg (h : f.n = 0x0) : selectClass8 f = .ok (.ldReg f.x f.y) := by simp only [selectClass8, h]

theorem selectClass8_eq_addReg (h : f.n = 0x4) : selectClass8 f = .ok (.addReg f.x f.y) := by
  simp only [selectClass8, h]

theorem selectClass8_eq_sub (h : f.n = 0x5) : selectClass8 f = .ok (.sub f.x f.y) := by simp only [selectClass8, h]

end SelectClass8

/-! ### Results and flags in exact arithmetic -/

/-- Bit 8 of the 9-bit sum of two bytes is set exactly when the sum is 256 or more. -/
theorem carryFlag_eq_decide (a b : Byte) : carryFlag a b = decide (a.toNat + b.toNat > 255) := by
  have exactSum : (sum9 a b).toNat = a.toNat + b.toNat := by
    have := a.isLt
    have := b.isLt
    simp [sum9]
    omega
  have msb : carryFlag a b = (sum9 a b).msb := rfl
  rw [msb, BitVec.msb_eq_decide, exactSum]
  rfl

/-- The difference of two bytes, as an integer, is reduced modulo 256. -/
theorem toNat_sub_eq_emod (a b : Byte) : ((a - b).toNat : Int) = ((a.toNat : Int) - b.toNat) % 256 := by
  have := b.isLt
  rw [BitVec.toNat_sub]
  omega

/-! ### What the handlers do -/

theorem exec_ldImm (x : Reg) (kk : Byte) (s : State) : exec (.ldImm x kk) s = .next (setV s x kk) := rfl

theorem exec_addImm (x : Reg) (kk : Byte) (s : State) :
    exec (.addImm x kk) s = .next (setV s x (getV s x + kk)) := rfl

theorem exec_ldReg (x y : Reg) (s : State) : exec (.ldReg x y) s = .next (setV s x (getV s y)) := rfl

theorem exec_addReg (x y : Reg) (s : State) :
    exec (.addReg x y) s = writeResultFlag x (getV s x + getV s y)
      (decide ((getV s x).toNat + (getV s y).toNat > 255)) s := by
  rw [← sumByte_eq_add, ← carryFlag_eq_decide]
  rfl

theorem exec_sub (x y : Reg) (s : State) :
    exec (.sub x y) s = writeResultFlag x (getV s x - getV s y)
      (decide ((getV s x).toNat > (getV s y).toNat)) s := rfl

/-- What the shared end of a flag-writing instruction leaves: VF holds the flag, `V[x]` the result unless it is VF, and
nothing else changes (R93). -/
theorem writeResultFlag_leaves (x : Reg) (r : Byte) (p : Prop) [Decidable p] (s : State) :
    ∃ t, writeResultFlag x r (decide p) s = .next t ∧ t = { s with V := t.V } ∧
      t.V[15] = (if p then 1 else 0) ∧ (x ≠ 15 → t.V[x] = r) ∧
      ∀ j : Reg, j ≠ x → j ≠ 15 → t.V[j] = s.V[j] := by
  refine ⟨_, rfl, rfl, ?_, fun hx => ?_, fun j hjx hj => ?_⟩
  · exact (getV_setV_same _ .vf _).trans (flagByte_decide p)
  · exact (getV_setFlag_ne _ hx _).trans (getV_setV_same s x r)
  · exact (getV_setFlag_ne _ hj _).trans (getV_setV_ne s x j r hjx)

/-! ### The statements -/

/-- Settles O40: the lookup at low nibble 4, and the flag-writing end with the sum and its carry in exact arithmetic. -/
theorem addSetsCarry : Obligations.AddSetsCarry := by
  refine ⟨selects_of_class8 0x4#4 selectClass8_eq_addReg, fun x y s => ?_⟩
  rw [exec_addReg]
  obtain ⟨t, ht, hV, hflag, hresult, hframe⟩ := writeResultFlag_leaves x (getV s x + getV s y)
    ((getV s x).toNat + (getV s y).toNat > 255) s
  exact ⟨t, ht, hV, hflag, fun hx => by rw [hresult hx]; exact BitVec.toNat_add _ _, hframe⟩

/-- Settles O41: the lookup at low nibble 5, and the flag-writing end with the difference and the strict comparison. -/
theorem subtractSetsNotBorrow : Obligations.SubtractSetsNotBorrow := by
  refine ⟨selects_of_class8 0x5#4 selectClass8_eq_sub, fun x y s => ?_⟩
  rw [exec_sub]
  obtain ⟨t, ht, hV, hflag, hresult, hframe⟩ := writeResultFlag_leaves x (getV s x - getV s y)
    ((getV s x).toNat > (getV s y).toNat) s
  exact ⟨t, ht, hV, hflag, fun hx => by rw [hresult hx]; exact toNat_sub_eq_emod _ _, hframe⟩

/-- Settles O38: the decoder's equations at classes 0x6 and 0x7, the lookup at low nibble 0 of class 0x8, and the three
handlers, each the shared write of one register. -/
theorem loadsAndAddImmediateWriteOneRegister : Obligations.LoadsAndAddImmediateWriteOneRegister :=
  ⟨selects_of_class 0x6#4 decode_eq_ldImm, selects_of_class 0x7#4 decode_eq_addImm,
    selects_of_class8 0x0#4 selectClass8_eq_ldReg, fun x y kk s =>
      ⟨exec_ldImm x kk s, exec_addImm x kk s, exec_ldReg x y s⟩⟩

end Sys2Proof.Machine
end

section
/-! PROOFS. Index register and display of spec/44_index_display.md: what LD I and CLS write (R105, R106), and where the
bits of a sprite row land on its scanline (R111, R112). -/

namespace Sys2Proof.Machine

/-! ### Words whose fixed bits are the whole word -/

/-- Under the mask 0xFFFF a row of R63 has one word, so what that word decodes to is all the row selects. -/
theorem selects_of_wholeWord {p : Word} {build : Fields → Instr} (h : decode p = .ok (build (fieldsOf p))) :
    Selects 0xFFFF p build := by
  intro w hw
  have hwp : w = p := by
    calc w
        = w &&& BitVec.allOnes 16 := BitVec.and_allOnes.symm
      _ = p := hw
  rw [hwp, h]

/-! ### What the handlers do -/

theorem exec_ldI (nnn : Addr) (s : State) : exec (.ldI nnn) s = .next (setI s (addrOperand nnn)) := rfl

theorem exec_cls (s : State) : exec .cls s = .next (setFb s (Vector.replicate 32 0)) := rfl

/-! ### The bits of a placed sprite row -/

theorem originColumn_lt (vx : Byte) : originColumn vx < 64 := Nat.mod_lt _ (by decide)

/-- Column `c` of a placed row shows the bit of the byte that lies as far from its bit 7 as `c` from the origin column,
cyclically (R111). -/
theorem getLsbD_spriteBits (b : Byte) {cx c : Nat} (hcx : cx < 64) (hc : c < 64) :
    (spriteBits b cx).getLsbD c = (decide ((c + 64 - cx) % 64 < 8) && b.getLsbD (7 - (c + 64 - cx) % 64)) := by
  have hd : (c + 64 - cx) % 64 < 64 := Nat.mod_lt _ (by decide)
  rw [spriteBits, getLsbD_rotl64 _ hcx hc, BitVec.getLsbD_setWidth, getLsbD_rev8]
  simp [hd]

/-- The mask of R111 is the eight columns from the origin column on, cyclically. -/
theorem getLsbD_spriteMask {cx c : Nat} (hcx : cx < 64) (hc : c < 64) :
    (rotl64 ((0xFF#8).setWidth 64) cx).getLsbD c = decide ((c + 64 - cx) % 64 < 8) := by
  have ones : ∀ d < 64, ((0xFF#8).setWidth 64).getLsbD d = decide (d < 8) := by decide
  rw [getLsbD_rotl64 _ hcx hc, ones _ (Nat.mod_lt _ (by decide))]

/-- The column `j` places to the right of `v`, wrapping past column 63, is `c` exactly when `j` is their distance. -/
theorem column_eq_iff_distance {v j c : Nat} (hj : j < 64) (hc : c < 64) :
    (v + j) % 64 = c ↔ j = (c + 64 - v % 64) % 64 := by
  omega

/-- Bit 7 of the byte lands on the origin column, each next bit one column to the right, wrapping past column 63
(R111). -/
theorem getLsbD_spriteBits_originColumn_iff (b vx : Byte) {c : Nat} (hc : c < 64) :
    (spriteBits b (originColumn vx)).getLsbD c = true ↔
      ∃ j < 8, (vx.toNat + j) % 64 = c ∧ b.getLsbD (7 - j) = true := by
  rw [getLsbD_spriteBits b (originColumn_lt vx) hc, Bool.and_eq_true, decide_eq_true_iff]
  constructor
  · rintro ⟨hd, hb⟩
    exact ⟨_, hd, (column_eq_iff_distance (by omega) hc).mpr rfl, hb⟩
  · rintro ⟨j, hj, hcol, hb⟩
    obtain rfl := (column_eq_iff_distance (by omega) hc).mp hcol
    exact ⟨hj, hb⟩

/-- A placed row has no bit outside its mask (R111). -/
theorem spriteBits_and_not_mask (b : Byte) {cx : Nat} (hcx : cx < 64) :
    spriteBits b cx &&& ~~~(rotl64 ((0xFF#8).setWidth 64) cx) = 0 := by
  apply BitVec.eq_of_getLsbD_eq
  intro c hc
  simp only [BitVec.getLsbD_and, BitVec.getLsbD_not, getLsbD_spriteBits b hcx hc, getLsbD_spriteMask hcx hc]
  by_cases hd : (c + 64 - cx) % 64 < 8 <;> simp [hd]

/-- XOR under a mask that holds every bit of the second operand is the plain XOR (R112). -/
theorem masked_xor_eq_xor {w : Nat} {s m : BitVec w} (h : s &&& ~~~m = 0) (old : BitVec w) :
    (old &&& ~~~m) ||| ((old ^^^ s) &&& m) = old ^^^ s := by
  ext c hc
  have inside : s[c] = true → m[c] = true := by simpa [hc] using congrArg (·.getLsbD c) h
  cases hm : m[c] with
  | true => simp [hm]
  | false =>
    have hs : s[c] = false := Bool.eq_false_iff.mpr fun hs => by simp [inside hs] at hm
    simp [hm, hs]

/-! ### The statements -/

/-- Settles O45: the decoder's equation at class 0xA, and the handler's one write. -/
theorem loadIndexSetsI : Obligations.LoadIndexSetsI := ⟨selects_of_class 0xA#4 decode_eq_ldI, exec_ldI⟩

/-- Settles O46: the lookup of class 0x0 at the word 00E0, and the handler's one write, whose scanlines are all 0. -/
theorem clearScreenZeroesEveryScanline : Obligations.ClearScreenZeroesEveryScanline :=
  ⟨selects_of_wholeWord ((decode_eq_selectClass0 rfl).trans rfl), fun s =>
    ⟨_, exec_cls s, rfl, fun r => Vector.getElem_replicate r.isLt⟩⟩

/-- Settles O49: the cut of the origin column, the bits of a placed row, and the composition under a mask that holds
all of them. -/
theorem spriteRowIsRotatedIntoPlace : Obligations.SpriteRowIsRotatedIntoPlace := by
  intro b vx old s m
  have inside : s &&& ~~~m = 0 := spriteBits_and_not_mask b (originColumn_lt vx)
  exact ⟨rfl, fun c => getLsbD_spriteBits_originColumn_iff b vx c.isLt, inside, masked_xor_eq_xor inside old⟩

end Sys2Proof.Machine
end

section
/-! PROOFS. The unimplemented instructions (spec/45_unimplemented.md): the shared law of the 13 handlers, at each of
them. -/

namespace Sys2Proof.Machine

/-- Settles O52: `exec_of_unimplemented` at each of the 13, with `raise` read as its one write of `status`. -/
theorem unimplementedInstructionsOnlyHalt : Obligations.UnimplementedInstructionsOnlyHalt := by
  intro x kk nnn s halted
  have halts {i : Instr} (h : i.unimplemented = true) : exec i s = halted := exec_of_unimplemented h s
  exact ⟨halts rfl, halts rfl, halts rfl, halts rfl, halts rfl, halts rfl, halts rfl, halts rfl, halts rfl,
    halts rfl, halts rfl, halts rfl, halts rfl⟩

end Sys2Proof.Machine
end

section
/-! PROOFS. Initialise and Load (spec/70_reset_and_hazards.md): the table of R147 read off the state after creation, and
the image of R149 as the one thing a Load adds to it. -/

namespace Sys2Proof.Machine

/-! ### Initialise -/

@[simp] theorem initialise_eq_reset (s : State) : initialise s = State.reset := rfl

/-- In the font area an unlisted address reads as its byte of FONT (R38), whatever the bytes of FONT are. -/
theorem Memory.some_unlisted_of_lt_font {a : Nat} (h : a < 80) : some (Memory.unlisted a) = FONT[a]? := by
  have inFont : a < FONT.length := h
  simp [Memory.unlisted, List.getElem?_eq_getElem inFont]

/-! ### Load -/

/-- The state a Load of `image` leaves (R149): the initialised one, but for the bytes from 0x200 on. -/
def loadedImage (image : List Byte) : State :=
  setMem State.reset (State.reset.mem.writeBytes Config.base image)

theorem loadPort_of_fits {image : List Byte} (pos : 1 ≤ image.length) (fits : image.length ≤ 3584) (s : State) :
    loadPort image s = .next ⟨.ok, loadedImage image⟩ := by
  have nonempty : image.length ≠ 0 := by omega
  rw [loadPort, if_neg nonempty, if_pos fits, initialise_eq_reset, loadedImage]

theorem read_loadedImage_inside {image : List Byte} (fits : image.length ≤ 3584) (j : Nat) (h : j < image.length) :
    (loadedImage image).mem.read (0x200 + j) = image[j] :=
  Memory.read_writeBytes_inside image Memory.wf_nil 0x200 (by omega) j h

theorem read_loadedImage_outside (image : List Byte) {a : Nat} (h : a < 0x200 ∨ 0x200 + image.length ≤ a) :
    (loadedImage image).mem.read a = State.reset.mem.read a :=
  Memory.read_writeBytes_outside image State.reset.mem 0x200 a h

/-! ### The statements -/

/-- Settles O55: the reply of a Load that fits, and what its memory reads as inside and outside the image. -/
theorem loadInitialisesAndCopiesTheImage : Obligations.LoadInitialisesAndCopiesTheImage := fun image s pos fits =>
  ⟨loadedImage image, loadPort_of_fits pos fits s, rfl, read_loadedImage_inside fits,
    fun _ => read_loadedImage_outside image⟩

/-- Settles O53: the fields of the state after creation, and its empty memory read below and above the font's end. -/
theorem initialiseSetsEveryPieceOfState : Obligations.InitialiseSetsEveryPieceOfState := by
  intro s
  rw [initialise_eq_reset]
  exact ⟨rfl, fun x => Vector.getElem_replicate x.isLt, reset_I, reset_sp, fun j => Vector.getElem_replicate j.isLt,
    fun r => Vector.getElem_replicate r.isLt, fun _ => Memory.some_unlisted_of_lt_font, Memory.unlisted_above_font,
    reset_pc, reset_status⟩

end Sys2Proof.Machine
end

section
/-! PROOFS. Encoder, decoder and opcode map (spec/30_encoding.md). A word is the concatenation of its fields (R55), so
encodings and masked words are compared field by field (R58 to R63), and the words that select no handler are read off
the nested lookups of classes 0x8, 0xE and 0xF (R64). -/

namespace Sys2Proof

open Sys2Proof.Machine

/-! ### A word is the concatenation of its fields (R55) -/

section WordOfFields
variable (w : Word)

theorem wordNNN_fieldsOf : wordNNN (fieldsOf w).cls (fieldsOf w).nnn = w := by
  refine BitVec.eq_of_getLsbD_eq fun k hk => ?_
  simp only [wordNNN, fieldsOf, BitVec.getLsbD_append, BitVec.getLsbD_extractLsb']
  grind

theorem wordXKK_fieldsOf : wordXKK (fieldsOf w).cls (fieldsOf w).x (fieldsOf w).kk = w := by
  refine BitVec.eq_of_getLsbD_eq fun k hk => ?_
  simp only [wordXKK, fieldsOf, BitVec.ofFin_toFin, BitVec.getLsbD_append, BitVec.getLsbD_extractLsb']
  grind

theorem wordXYN_fieldsOf : wordXYN (fieldsOf w).cls (fieldsOf w).x (fieldsOf w).y (fieldsOf w).n = w := by
  refine BitVec.eq_of_getLsbD_eq fun k hk => ?_
  simp only [wordXYN, fieldsOf, BitVec.ofFin_toFin, BitVec.getLsbD_append, BitVec.getLsbD_extractLsb']
  grind

end WordOfFields

section FieldEquations
variable (p : Word) (c : BitVec 4) (x y : Reg) (n : Fin 16) (kk : Byte) (nnn : Addr)

theorem wordNNN_eq_iff : wordNNN c nnn = p ↔ c = p.extractLsb' 12 4 ∧ nnn = p.extractLsb' 0 12 := by
  constructor
  · rintro rfl
    exact ⟨(fieldsOf_wordNNN_cls ..).symm, (fieldsOf_wordNNN_nnn ..).symm⟩
  · rintro ⟨rfl, rfl⟩
    exact wordNNN_fieldsOf p

theorem wordXKK_eq_iff :
    wordXKK c x kk = p ↔ c = p.extractLsb' 12 4 ∧ x = (p.extractLsb' 8 4).toFin ∧ kk = p.extractLsb' 0 8 := by
  constructor
  · rintro rfl
    exact ⟨(fieldsOf_wordXKK_cls ..).symm, (fieldsOf_wordXKK_x ..).symm, (fieldsOf_wordXKK_kk ..).symm⟩
  · rintro ⟨rfl, rfl, rfl⟩
    exact wordXKK_fieldsOf p

theorem wordXYN_eq_iff :
    wordXYN c x y n = p ↔ c = p.extractLsb' 12 4 ∧ x = (p.extractLsb' 8 4).toFin ∧ y = (p.extractLsb' 4 4).toFin ∧
      BitVec.ofFin (w := 4) n = p.extractLsb' 0 4 := by
  constructor
  · rintro rfl
    exact ⟨(fieldsOf_wordXYN_cls ..).symm, (fieldsOf_wordXYN_x ..).symm, (fieldsOf_wordXYN_y ..).symm,
      congrArg BitVec.ofFin (fieldsOf_wordXYN_n ..).symm⟩
  · rintro ⟨rfl, rfl, rfl, hn⟩
    rw [show n = (fieldsOf p).n from congrArg BitVec.toFin hn]
    exact wordXYN_fieldsOf p

end FieldEquations

/-! ### When a word has a row's fixed bits (R63) -/

section Masks
variable (w p : Word)

theorem word_eq_iff : w = p ↔ (fieldsOf w).cls = p.extractLsb' 12 4 ∧ (fieldsOf w).nnn = p.extractLsb' 0 12 := by
  rw [← wordNNN_eq_iff, wordNNN_fieldsOf]

theorem and_FFFF_eq_iff :
    w &&& 0xFFFF#16 = p ↔ (fieldsOf w).cls = p.extractLsb' 12 4 ∧ (fieldsOf w).nnn = p.extractLsb' 0 12 := by
  rw [show w &&& 0xFFFF#16 = w from BitVec.and_allOnes, word_eq_iff]

theorem and_F000_eq_iff : w &&& 0xF000#16 = p ↔ (fieldsOf w).cls = p.extractLsb' 12 4 ∧ 0 = p.extractLsb' 0 12 := by
  conv_lhs => rw [← wordNNN_fieldsOf w, wordNNN_and_F000]
  exact wordNNN_eq_iff ..

theorem and_F0FF_eq_iff : w &&& 0xF0FF#16 = p ↔
    (fieldsOf w).cls = p.extractLsb' 12 4 ∧ 0 = (p.extractLsb' 8 4).toFin ∧ (fieldsOf w).kk = p.extractLsb' 0 8 := by
  conv_lhs => rw [← wordXKK_fieldsOf w, wordXKK_and_F0FF]
  exact wordXKK_eq_iff ..

theorem and_F00F_eq_iff : w &&& 0xF00F#16 = p ↔
    (fieldsOf w).cls = p.extractLsb' 12 4 ∧ 0 = (p.extractLsb' 8 4).toFin ∧ 0 = (p.extractLsb' 4 4).toFin ∧
      BitVec.ofFin (w := 4) (fieldsOf w).n = p.extractLsb' 0 4 := by
  conv_lhs => rw [← wordXYN_fieldsOf w, wordXYN_and_F00F]
  exact wordXYN_eq_iff ..

end Masks

/-! ### Decoding an encoded instruction -/

/-- A class 0 word is that of CLS or RET only for the two address operands SYS excludes (R59). -/
theorem decode_wordNNN_zero {nnn : Addr} (cls : nnn ≠ 0x0E0#12) (ret : nnn ≠ 0x0EE#12) :
    decode (wordNNN 0x0#4 nnn) = .ok (.sys nnn) := by
  simp [decode, selectClass0, wordNNN_eq_iff, cls, ret]

/-- Settles O1: the word of each instruction is laid out by one of the three word shapes, whose fields the decoder cuts
out again; SYS alone needs its well-formedness. -/
theorem decodeOfEncodeIsIdentity : Obligations.DecodeOfEncodeIsIdentity := by
  intro i hwf
  cases i with
  | cls | ret => rfl
  | sys nnn =>
    obtain ⟨hcls, hret⟩ : nnn ≠ 0x0E0#12 ∧ nnn ≠ 0x0EE#12 := by simpa [Instr.wellFormed] using hwf
    exact decode_wordNNN_zero hcls hret
  | jp | call | seImm | sneImm | seReg | ldImm | addImm | sneReg | ldI | jpV0 | rnd | drw => simp [encode, decode]
  | ldReg | or | and | xor | addReg | sub | shr | subn | shl => simp [encode, decode, selectClass8]
  | skp | sknp => simp [encode, decode, selectClassE]
  | ldVxDt | ldVxK | ldDtVx | ldStVx | addIVx | ldFVx | ldBVx | storeRegs | loadRegs =>
    simp [encode, decode, selectClassF]

/-! ### The lookups class by class -/

/-- The class nibbles: the four with a nested lookup (R59 to R62), then those that select alone (R58). -/
theorem class_cases (c : BitVec 4) : c = 0x0#4 ∨ c = 0x8#4 ∨ c = 0xE#4 ∨ c = 0xF#4 ∨
    c ∈ [0x1#4, 0x2#4, 0x3#4, 0x4#4, 0x5#4, 0x6#4, 0x7#4, 0x9#4, 0xA#4, 0xB#4, 0xC#4, 0xD#4] := by
  revert c
  decide

/-- The lookup of class 0x8 as a chain of comparisons, the shape the other lookups have. -/
theorem selectClass8_eq_ite (f : Fields) : selectClass8 f =
    let n := BitVec.ofFin (w := 4) f.n
    if n = 0x0#4 then .ok (.ldReg f.x f.y) else if n = 0x1#4 then .ok (.or f.x f.y)
    else if n = 0x2#4 then .ok (.and f.x f.y) else if n = 0x3#4 then .ok (.xor f.x f.y)
    else if n = 0x4#4 then .ok (.addReg f.x f.y) else if n = 0x5#4 then .ok (.sub f.x f.y)
    else if n = 0x6#4 then .ok (.shr f.x) else if n = 0x7#4 then .ok (.subn f.x f.y)
    else if n = 0xE#4 then .ok (.shl f.x) else .error .invalidInstruction := by
  simp only [selectClass8]
  generalize f.n = n
  fin_cases n <;> rfl

/-! ### The opcode map as a chain of comparisons (R63) -/

/-- The lookup of `decodeByTable` in any list of rows. -/
def lookupRow (rows : List OpcodeRow) (w : Word) : Except DecodeError Instr :=
  match rows.find? (fun r => w &&& r.mask == r.pattern) with
  | some r => .ok (r.build (fieldsOf w))
  | none => .error .invalidInstruction

theorem decodeByTable_eq_lookupRow (w : Word) : decodeByTable w = lookupRow opcodeTable w := rfl

theorem lookupRow_nil (w : Word) : lookupRow [] w = .error .invalidInstruction := rfl

theorem lookupRow_cons (r : OpcodeRow) (rows : List OpcodeRow) (w : Word) :
    lookupRow (r :: rows) w =
      if w &&& r.mask = r.pattern then .ok (r.build (fieldsOf w)) else lookupRow rows w := by
  by_cases h : w &&& r.mask = r.pattern <;> simp [lookupRow, h]

/-- Settles O3: each row's fixed bits are conditions on fields, and once the class is known the chain of rows shortens
to the lookup of that class. -/
theorem decoderIsTheOpcodeMap : Obligations.DecoderIsTheOpcodeMap := by
  intro w
  rw [decodeByTable_eq_lookupRow]
  simp only [opcodeTable, opcodeRowsLow, opcodeRowsAlu, opcodeRowsHigh, List.cons_append, List.nil_append,
    lookupRow_cons, lookupRow_nil, BitVec.ofNat_eq_ofNat, and_FFFF_eq_iff, and_F000_eq_iff, and_F0FF_eq_iff,
    and_F00F_eq_iff]
  rcases class_cases (fieldsOf w).cls with hc | hc | hc | hc | hc
  · simp [hc, decode_eq_selectClass0, selectClass0, word_eq_iff w]
  · simp [hc, decode_eq_selectClass8, selectClass8_eq_ite]
  · simp [hc, decode_eq_selectClassE, selectClassE]
  · simp [hc, decode_eq_selectClassF, selectClassF]
  · simp only [List.mem_cons, List.not_mem_nil, or_false] at hc
    rcases hc with hc | hc | hc | hc | hc | hc | hc | hc | hc | hc | hc | hc <;> simp [hc, decode]

/-! ### Encoding a decoded instruction -/

section WordOfKnownFields
variable {w : Word} {c : BitVec 4}

theorem wordNNN_of_class (hc : (fieldsOf w).cls = c) : wordNNN c (fieldsOf w).nnn = w := by
  rw [← hc, wordNNN_fieldsOf]

theorem wordXKK_of_class (hc : (fieldsOf w).cls = c) {kk : Byte} (hk : (fieldsOf w).kk = kk) :
    wordXKK c (fieldsOf w).x kk = w := by
  rw [← hc, ← hk, wordXKK_fieldsOf]

theorem wordXYN_of_class (hc : (fieldsOf w).cls = c) {n : Fin 16} (hn : (fieldsOf w).n = n) :
    wordXYN c (fieldsOf w).x (fieldsOf w).y n = w := by
  rw [← hc, ← hn, wordXYN_fieldsOf]

end WordOfKnownFields

/-- The low nibble is outside the mask 0xFFF0 (R58). -/
theorem wordXYN_and_FFF0 (c : BitVec 4) (x y : Reg) (n : Fin 16) :
    wordXYN c x y n &&& 0xFFF0#16 = wordXYN c x y 0 := by
  have h := and_append4 c 0xF#4 (BitVec.ofFin (w := 4) x) 0xF#4 (BitVec.ofFin (w := 4) y) 0xF#4
    (BitVec.ofFin (w := 4) n) 0#4
  rw [and_all4, and_all4, and_all4, BitVec.and_zero] at h
  exact h

/-- The `y` field is outside the mask 0xFF0F (R102, R104). -/
theorem wordXYN_and_FF0F (c : BitVec 4) (x y : Reg) (n : Fin 16) :
    wordXYN c x y n &&& 0xFF0F#16 = wordXYN c x 0 n := by
  have h := and_append4 c 0xF#4 (BitVec.ofFin (w := 4) x) 0xF#4 (BitVec.ofFin (w := 4) y) 0#4
    (BitVec.ofFin (w := 4) n) 0xF#4
  rw [and_all4, and_all4, and_all4, BitVec.and_zero] at h
  exact h

/-- `i` is well-formed, and its encoding agrees with `w` on the bits of `i` that are examined. -/
def EncodesAs (w : Word) (i : Instr) : Prop :=
  i.wellFormed = true ∧ encode i &&& examinedBits i = w &&& examinedBits i

theorem encodesAs_of_eq {w : Word} {i : Instr} (hwf : i.wellFormed = true) (h : encode i = w) : EncodesAs w i :=
  ⟨hwf, by rw [h]⟩

section EncodesAs
variable {w : Word} {i : Instr}

theorem encodesAs_of_decode_eq {j : Instr} (hj : decode w = .ok j) (hw : EncodesAs w j) (h : decode w = .ok i) :
    EncodesAs w i := by
  cases hj.symm.trans h
  exact hw

theorem encodesAs_of_selectClass0 (hc : (fieldsOf w).cls = 0x0#4) (h : selectClass0 w (fieldsOf w) = .ok i) :
    EncodesAs w i := by
  unfold selectClass0 at h
  split_ifs at h with hcls hret <;> cases h
  · exact encodesAs_of_eq rfl hcls.symm
  · exact encodesAs_of_eq rfl hret.symm
  · refine encodesAs_of_eq ?_ (wordNNN_of_class hc)
    simpa [Instr.wellFormed, word_eq_iff w, hc] using And.intro hcls hret

/-- 5XYN and 9XYN: the low nibble is lost (R58). -/
theorem encodesAs_of_registerSkip {c : BitVec 4} (hc : (fieldsOf w).cls = c) (hwf : i.wellFormed = true)
    (he : encode i = wordXYN c (fieldsOf w).x (fieldsOf w).y 0) (hx : examinedBits i = 0xFFF0#16) :
    EncodesAs w i := by
  have hw : w &&& 0xFFF0#16 = wordXYN c (fieldsOf w).x (fieldsOf w).y 0 := by
    conv_lhs => rw [← wordXYN_of_class hc rfl, wordXYN_and_FFF0]
  exact ⟨hwf, by rw [he, hx, hw, wordXYN_and_FFF0]⟩

/-- 8XY6 and 8XYE: the `y` field is lost (R102, R104). -/
theorem encodesAs_of_shift {c : BitVec 4} {n : Fin 16} (hc : (fieldsOf w).cls = c) (hn : (fieldsOf w).n = n)
    (hwf : i.wellFormed = true) (he : encode i = wordXYN c (fieldsOf w).x 0 n) (hx : examinedBits i = 0xFF0F#16) :
    EncodesAs w i := by
  have hw : w &&& 0xFF0F#16 = wordXYN c (fieldsOf w).x 0 n := by
    conv_lhs => rw [← wordXYN_of_class hc hn, wordXYN_and_FF0F]
  exact ⟨hwf, by rw [he, hx, hw, wordXYN_and_FF0F]⟩

theorem encodesAs_of_selectClass8 (hc : (fieldsOf w).cls = 0x8#4) (h : selectClass8 (fieldsOf w) = .ok i) :
    EncodesAs w i := by
  unfold selectClass8 at h
  split at h
  case h_7 hn | h_9 hn =>
    cases h
    exact encodesAs_of_shift hc hn rfl rfl rfl
  all_goals cases h <;> exact encodesAs_of_eq rfl (wordXYN_of_class hc ‹_›)

theorem encodesAs_of_selectClassE (hc : (fieldsOf w).cls = 0xE#4) (h : selectClassE (fieldsOf w) = .ok i) :
    EncodesAs w i := by
  unfold selectClassE at h
  split_ifs at h <;> cases h <;>
    exact encodesAs_of_eq rfl (wordXKK_of_class hc ‹_›)

theorem encodesAs_of_selectClassF (hc : (fieldsOf w).cls = 0xF#4) (h : selectClassF (fieldsOf w) = .ok i) :
    EncodesAs w i := by
  unfold selectClassF at h
  split_ifs at h <;> cases h <;>
    exact encodesAs_of_eq rfl (wordXKK_of_class hc ‹_›)

end EncodesAs

/-- Settles O2: in each class the word is the concatenation of its fields, which the encoder writes back, but for the
low nibble of a register skip and the `y` field of a shift. -/
theorem encodeOfDecodeKeepsExaminedBits : Obligations.EncodeOfDecodeKeepsExaminedBits := by
  intro w i h
  rcases class_cases (fieldsOf w).cls with hc | hc | hc | hc | hc
  · exact encodesAs_of_selectClass0 hc ((decode_eq_selectClass0 hc).symm.trans h)
  · exact encodesAs_of_selectClass8 hc ((decode_eq_selectClass8 hc).symm.trans h)
  · exact encodesAs_of_selectClassE hc ((decode_eq_selectClassE hc).symm.trans h)
  · exact encodesAs_of_selectClassF hc ((decode_eq_selectClassF hc).symm.trans h)
  · simp only [List.mem_cons, List.not_mem_nil, or_false] at hc
    rcases hc with hc | hc | hc | hc | hc | hc | hc | hc | hc | hc | hc | hc
    · exact encodesAs_of_decode_eq (decode_eq_jp hc) (encodesAs_of_eq rfl (wordNNN_of_class hc)) h
    · exact encodesAs_of_decode_eq (decode_eq_call hc) (encodesAs_of_eq rfl (wordNNN_of_class hc)) h
    · exact encodesAs_of_decode_eq (decode_eq_seImm hc) (encodesAs_of_eq rfl (wordXKK_of_class hc rfl)) h
    · exact encodesAs_of_decode_eq (decode_eq_sneImm hc) (encodesAs_of_eq rfl (wordXKK_of_class hc rfl)) h
    · exact encodesAs_of_decode_eq (decode_eq_seReg hc) (encodesAs_of_registerSkip hc rfl rfl rfl) h
    · exact encodesAs_of_decode_eq (decode_eq_ldImm hc) (encodesAs_of_eq rfl (wordXKK_of_class hc rfl)) h
    · exact encodesAs_of_decode_eq (decode_eq_addImm hc) (encodesAs_of_eq rfl (wordXKK_of_class hc rfl)) h
    · exact encodesAs_of_decode_eq (decode_eq_sneReg hc) (encodesAs_of_registerSkip hc rfl rfl rfl) h
    · exact encodesAs_of_decode_eq (decode_eq_ldI hc) (encodesAs_of_eq rfl (wordNNN_of_class hc)) h
    · exact encodesAs_of_decode_eq (decode_eq_jpV0 hc) (encodesAs_of_eq rfl (wordNNN_of_class hc)) h
    · exact encodesAs_of_decode_eq (decode_eq_rnd hc) (encodesAs_of_eq rfl (wordXKK_of_class hc rfl)) h
    · exact encodesAs_of_decode_eq (decode_eq_drw hc) (encodesAs_of_eq rfl (wordXYN_of_class hc rfl)) h

/-! ### The words that select no handler (R64) -/

section Invalid
variable (f : Fields)

theorem selectClass8_eq_error_iff : selectClass8 f = .error .invalidInstruction ↔
    BitVec.ofFin (w := 4) f.n ∈ [0x8#4, 0x9#4, 0xA#4, 0xB#4, 0xC#4, 0xD#4, 0xF#4] := by
  simp only [selectClass8]
  generalize f.n = n
  fin_cases n <;> simp

theorem selectClassE_eq_error_iff :
    selectClassE f = .error .invalidInstruction ↔ f.kk ∉ [0x9E#8, 0xA1#8] := by
  unfold selectClassE
  split_ifs <;> simp [*]

theorem selectClassF_eq_error_iff : selectClassF f = .error .invalidInstruction ↔
    f.kk ∉ [0x07#8, 0x0A#8, 0x15#8, 0x18#8, 0x1E#8, 0x29#8, 0x33#8, 0x55#8, 0x65#8] := by
  unfold selectClassF
  split_ifs <;> simp [*]

theorem selectClass0_ne_error (w : Word) : selectClass0 w f ≠ .error .invalidInstruction := by
  unfold selectClass0
  split_ifs <;> simp

end Invalid

theorem raisesInvalid_of_decode {w : Word} (h : decode w = .error .invalidInstruction) : RaisesInvalid w :=
  ⟨h, fun _ hr hp hw => step_of_invalid hr hp (hw ▸ h)⟩

/-- Settles O10: only the lookups of classes 0x8, 0xE and 0xF reject, each exactly outside its keys, and no lookup
rejects for another reason. -/
theorem invalidEncodingsAreExactlyThese : Obligations.InvalidEncodingsAreExactlyThese := by
  unfold Obligations.InvalidEncodingsAreExactlyThese
  intro in8 inE inF
  have exactly (w : Word) : decode w = .error .invalidInstruction ↔ (in8 w || inE w || inF w) = true := by
    have fields : w.extractLsb' 12 4 = (fieldsOf w).cls ∧ w.extractLsb' 0 8 = (fieldsOf w).kk ∧
        w.extractLsb' 0 4 = BitVec.ofFin (w := 4) (fieldsOf w).n := ⟨rfl, rfl, rfl⟩
    simp only [in8, inE, inF, fields]
    rcases class_cases (fieldsOf w).cls with hc | hc | hc | hc | hc
    · simp [hc, decode_eq_selectClass0, selectClass0_ne_error]
    · simp [hc, decode_eq_selectClass8, selectClass8_eq_error_iff]
    · simp [hc, decode_eq_selectClassE, selectClassE_eq_error_iff]
    · simp [hc, decode_eq_selectClassF, selectClassF_eq_error_iff]
    · simp only [List.mem_cons, List.not_mem_nil, or_false] at hc
      rcases hc with hc | hc | hc | hc | hc | hc | hc | hc | hc | hc | hc | hc <;> simp [hc, decode]
  exact ⟨exactly, decode_ne_truncated, fun s hr hp hw => step_of_invalid hr hp ((exactly _).mpr hw)⟩

/-! ### Classes 0x0, 0x8, 0xE and 0xF -/

/-- Settles O6: the lookup of class 0x0 at its two words and at any other. -/
theorem classZeroSelectsByTheWholeWord : Obligations.ClassZeroSelectsByTheWholeWord := by
  intro w hc
  rw [decode_eq_selectClass0 hc]
  exact ⟨fun h => if_pos h, fun h => by rw [h]; rfl, fun hcls hret => ⟨(if_neg hcls).trans (if_neg hret), rfl⟩⟩

section SelectClass8
variable {f : Fields}

theorem selectClass8_eq_or (h : f.n = 0x1) : selectClass8 f = .ok (.or f.x f.y) := by simp only [selectClass8, h]

theorem selectClass8_eq_and (h : f.n = 0x2) : selectClass8 f = .ok (.and f.x f.y) := by simp only [selectClass8, h]

theorem selectClass8_eq_xor (h : f.n = 0x3) : selectClass8 f = .ok (.xor f.x f.y) := by simp only [selectClass8, h]

theorem selectClass8_eq_shr (h : f.n = 0x6) : selectClass8 f = .ok (.shr f.x) := by simp only [selectClass8, h]

theorem selectClass8_eq_subn (h : f.n = 0x7) : selectClass8 f = .ok (.subn f.x f.y) := by simp only [selectClass8, h]

theorem selectClass8_eq_shl (h : f.n = 0xE) : selectClass8 f = .ok (.shl f.x) := by simp only [selectClass8, h]

end SelectClass8

/-- Settles O7: the lookup of class 0x8 at each of its nine low nibbles, and at any other. -/
theorem classEightSelectsByTheLowNibble : Obligations.ClassEightSelectsByTheLowNibble := by
  intro w hc x y n
  have hd := decode_eq_selectClass8 hc
  have atNibble {m : BitVec 4} {i : Instr} (h : (fieldsOf w).n = m.toFin → selectClass8 (fieldsOf w) = .ok i)
      (hn : n = m) : decode w = .ok i :=
    hd.trans (h (congrArg BitVec.toFin hn))
  exact ⟨atNibble selectClass8_eq_ldReg, atNibble selectClass8_eq_or, atNibble selectClass8_eq_and,
    atNibble selectClass8_eq_xor, atNibble selectClass8_eq_addReg, atNibble selectClass8_eq_sub,
    atNibble selectClass8_eq_shr, atNibble selectClass8_eq_subn, atNibble selectClass8_eq_shl,
    fun hn => raisesInvalid_of_decode (hd.trans ((selectClass8_eq_error_iff _).mpr hn))⟩

/-- Both instructions of class 0xE are unimplemented (R61). -/
theorem unimplemented_of_selectClassE {f : Fields} {i : Instr} (h : selectClassE f = .ok i) :
    i.unimplemented = true := by
  unfold selectClassE at h
  split_ifs at h <;> cases h <;> rfl

/-- The nine instructions of class 0xF are unimplemented (R62). -/
theorem unimplemented_of_selectClassF {f : Fields} {i : Instr} (h : selectClassF f = .ok i) :
    i.unimplemented = true := by
  unfold selectClassF at h
  split_ifs at h <;> cases h <;> rfl

/-- Settles O8: the lookup of class 0xE at its two keys, and at any other low byte. -/
theorem classESelectsByTheLowByte : Obligations.ClassESelectsByTheLowByte := by
  intro w hc x kk
  have hd := decode_eq_selectClassE hc
  have atKey {k : Byte} {i : Instr} (h : selectClassE { fieldsOf w with kk := k } = .ok i) (hk : kk = k) :
      decode w = .ok i := by
    subst hk
    exact hd.trans h
  exact ⟨atKey rfl, atKey rfl, fun i h => unimplemented_of_selectClassE (hd.symm.trans h),
    fun h => raisesInvalid_of_decode (hd.trans ((selectClassE_eq_error_iff _).mpr h))⟩

/-- Settles O9: the lookup of class 0xF at its nine keys, and at any other low byte. -/
theorem classFSelectsByTheLowByte : Obligations.ClassFSelectsByTheLowByte := by
  intro w hc x kk
  have hd := decode_eq_selectClassF hc
  have atKey {k : Byte} {i : Instr} (h : selectClassF { fieldsOf w with kk := k } = .ok i) (hk : kk = k) :
      decode w = .ok i := by
    subst hk
    exact hd.trans h
  exact ⟨atKey rfl, atKey rfl, atKey rfl, atKey rfl, atKey rfl, atKey rfl, atKey rfl, atKey rfl, atKey rfl,
    fun i h => unimplemented_of_selectClassF (hd.symm.trans h),
    fun h => raisesInvalid_of_decode (hd.trans ((selectClassF_eq_error_iff _).mpr h))⟩

end Sys2Proof
end

section
/-! PROOFS. Calls and returns (spec/41_control_flow.md): the handlers of CALL and RET at each kind of `sp` (R27, R28,
R87, R88), and a call undone by a return. -/

namespace Sys2Proof.Machine

/-! ### The handlers at each kind of stack pointer -/

theorem legalSp_of_eq_two_mul {sp : Word} {d : Nat} (h : sp.toNat = 2 * d) (hd : d ≤ 16) : LegalSp sp := by
  simp only [LegalSp, Config.spFull, Config.spStep]
  omega

section Handlers
variable {s : State} (nnn : Addr)

theorem exec_call_of_full (h : s.sp.toNat = 32) : exec (.call nnn) s = .next (raise .stackOverflow s) := if_pos h

theorem exec_call_of_legal (h : LegalSp s.sp) (h32 : s.sp.toNat ≠ 32) :
    exec (.call nnn) s = .next (setPc (pushStack s s.pc) (addrOperand nnn)) := (if_neg h32).trans (if_pos h)

theorem exec_call_of_illegal (h : ¬ LegalSp s.sp) : exec (.call nnn) s = .fault .illegalStackPointer := by
  have h32 : s.sp.toNat ≠ 32 := fun e => h (by rw [LegalSp, e]; decide)
  exact (if_neg h32).trans (if_neg h)

theorem exec_ret_of_empty (h : s.sp.toNat = 0) : exec .ret s = .next (raise .stackUnderflow s) := if_pos h

theorem exec_ret_of_legal (h : LegalSp s.sp) (h0 : s.sp.toNat ≠ 0) :
    exec .ret s = .next (setPc (popStack s) (stackAtSp (popStack s))) := (if_neg h0).trans (if_pos h)

theorem exec_ret_of_illegal (h : ¬ LegalSp s.sp) : exec .ret s = .fault .illegalStackPointer := by
  have h0 : s.sp.toNat ≠ 0 := fun e => h (by rw [LegalSp, e]; decide)
  exact (if_neg h0).trans (if_neg h)

/-- With `j` entries in use a call writes entry `j`. -/
theorem exec_call_at {j : Fin 16} (h : s.sp.toNat = 2 * j.val) :
    exec (.call nnn) s = .next { s with stack := s.stack.set j s.pc, sp := s.sp + 2, pc := nnn.setWidth 16 } := by
  obtain rfl := stackIndex_eq h
  exact exec_call_of_legal nnn (legalSp_of_eq_two_mul h (by omega)) (by omega)

/-- With `j + 1` entries in use a return reads entry `j`. -/
theorem exec_ret_at {j : Fin 16} (h : s.sp.toNat = 2 * (j.val + 1)) :
    exec .ret s = .next { s with sp := s.sp - 2, pc := s.stack[j] } := by
  obtain rfl : stackIndex (s.sp - 2) = j := stackIndex_eq (by rw [toNat_sub_two (by omega)]; omega)
  exact exec_ret_of_legal (legalSp_of_eq_two_mul h (by omega)) (by omega)

end Handlers

/-! ### The statements -/

/-- Settles O34: the decoder's equation at class 0x2, and the handler at each depth and on a full stack. -/
theorem callPushesTheReturnAddress : Obligations.CallPushesTheReturnAddress :=
  ⟨selects_of_class 0x2#4 decode_eq_call, fun nnn _ =>
    ⟨fun _ => exec_call_at nnn, fun h => exec_call_of_full nnn (congrArg BitVec.toNat h)⟩⟩

/-- Settles O35: the lookup of class 0x0 at the word 00EE, and the handler at each depth and on an empty stack. -/
theorem returnPopsTheTopEntry : Obligations.ReturnPopsTheTopEntry :=
  ⟨selects_of_wholeWord ((decode_eq_selectClass0 rfl).trans rfl), fun _ =>
    ⟨fun _ => exec_ret_at, fun h => exec_ret_of_empty (congrArg BitVec.toNat h)⟩⟩

/-- Settles O24: both handlers reach their fault at an illegal `sp`. -/
theorem illegalStackPointerStops : Obligations.IllegalStackPointerStops := fun _ nnn h =>
  ⟨exec_call_of_illegal nnn h, exec_ret_of_illegal h⟩

/-- Settles O36: the return reads the entry the call wrote, and `sp` goes up and down by 2. -/
theorem callThenReturnRestoresPc : Obligations.CallThenReturnRestoresPc := by
  intro nnn s p legal h32
  obtain ⟨j, hj⟩ := exists_index_of_legal legal (by omega)
  refine ⟨_, j, hj, exec_call_at nnn hj, ?_⟩
  have up : (s.sp + 2).toNat = 2 * (j.val + 1) := by rw [toNat_add_two (by omega)]; omega
  rw [exec_ret_at up]
  simp

end Sys2Proof.Machine
end

section
/-! PROOFS. Legal states (R22, R25, R27, R28): an instruction that starts with `pc` just past a fetched word keeps the
invariant, so every Step does; a Step of a legal state completes; creation and Load establish the invariant. -/

namespace Sys2Proof.Machine

/-! ### The parts of the invariant, effect by effect -/

section Legal
variable {s : State}

theorem legal_raise (h : Legal s) (k : StepError) : Legal (raise k s) := ⟨h.sp, h.I, h.pc, h.stack, h.mem⟩

theorem legal_setV (h : Legal s) (x : Reg) (v : Byte) : Legal (setV s x v) := ⟨h.sp, h.I, h.pc, h.stack, h.mem⟩

theorem legal_setFb (h : Legal s) (rows : Vector Scanline 32) : Legal (setFb s rows) :=
  ⟨h.sp, h.I, h.pc, h.stack, h.mem⟩

theorem legal_setPc (h : Legal s) {v : Word} (hv : v.toNat ≤ 0x10FE) : Legal (setPc s v) :=
  ⟨h.sp, h.I, hv, h.stack, h.mem⟩

theorem legal_setI (h : Legal s) {v : Word} (hv : v.toNat ≤ 0xFFF) : Legal (setI s v) :=
  ⟨h.sp, hv, h.pc, h.stack, h.mem⟩

theorem legal_pushStack (h : Legal s) (h32 : s.sp.toNat ≠ 32) {v : Word} (hv : v.toNat ≤ 0x1000) :
    Legal (pushStack s v) where
  sp := legalSp_add_two h.sp h32
  I := h.I
  pc := h.pc
  stack j := by
    rw [pushStack_stack, Fin.getElem_fin, Vector.getElem_set]
    split
    · exact hv
    · exact h.stack j
  mem := h.mem

theorem legal_popStack (h : Legal s) (h0 : s.sp.toNat ≠ 0) : Legal (popStack s) :=
  ⟨legalSp_sub_two h.sp h0, h.I, h.pc, h.stack, h.mem⟩

/-- A legal `pc` that passes the fetch is at most 0x1000 after the pre-increment, the bound of a stack entry. -/
theorem toNat_advancePc_le (h : s.pc.toNat ≤ 0xFFE) : (advancePc s).pc.toNat ≤ 0x1000 := by
  rw [advancePc_pc, toNat_add_two (by omega)]
  omega

theorem legal_advancePc (h : Legal s) (hp : s.pc.toNat ≤ 0x1000) : Legal (advancePc s) :=
  legal_setPc h (v := s.pc + 2) (by rw [toNat_add_two (by omega)]; omega)

end Legal

theorem toNat_addrOperand_le (nnn : Addr) : (addrOperand nnn).toNat ≤ 0xFFF := by
  rw [toNat_addrOperand]
  omega

/-- An instruction keeps the legal states when `pc` stands just past a fetched word. -/
theorem legal_of_effect {s t : State} {i : Instr} (hs : Legal s) (hp : s.pc.toNat ≤ 0x1000) (h : Effect s i t) :
    Legal t := by
  have address (nnn : Addr) : (addrOperand nnn).toNat ≤ 0x10FE := (toNat_addrOperand_le nnn).trans (by decide)
  match h with
  | .jump nnn => exact legal_setPc hs (address nnn)
  | .indexedJump nnn => exact legal_setPc hs (toNat_indexedTarget_le nnn _)
  | .call nnn _ h32 => exact legal_setPc (legal_pushStack hs h32 hp) (address nnn)
  | .return _ h0 => exact legal_setPc (legal_popStack hs h0) ((hs.stack _).trans (by decide))
  | .skip _ taken _ =>
    cases taken with
    | false => exact hs
    | true => exact legal_advancePc hs hp
  | .write _ x v .. => exact legal_setV hs x v
  | .writeFlag _ x v f .. => exact legal_setV (legal_setV hs x v) .vf (flagByte f)
  | .loadIndex nnn => exact legal_setI hs (toNat_addrOperand_le nnn)
  | .clear => exact legal_setFb hs _
  | .draw _ _ _ rows hit .. => exact legal_setV (legal_setFb hs rows) .vf (flagByte hit)
  | .callFull .. | .returnEmpty _ | .drawOutOfRange .. | .unimplemented .. => exact legal_raise hs _

/-- Settles O20: a Step that does not execute raises at most after the pre-increment, and the instruction it executes
starts just past its own word. -/
theorem legalStatesStayLegal : Obligations.LegalStatesStayLegal := by
  intro s t hs h
  have advanced (hp : s.pc.toNat ≤ 0xFFE) : Legal (advancePc s) := legal_advancePc hs (by omega)
  rcases step_cases h with ⟨k, -, rfl⟩ | ⟨-, -, rfl⟩ | ⟨-, hp, -, rfl⟩ | ⟨i, -, ⟨hp, -⟩, hexec⟩
  · exact hs
  · exact legal_raise hs _
  · exact legal_raise (advanced hp) _
  · exact legal_of_effect (advanced hp) (toNat_advancePc_le hp) (effect_of_exec hexec)

/-! ### Completion -/

/-- Only an illegal `sp` keeps an instruction from a next state (log entry 4). -/
theorem exec_completes {s : State} (h : LegalSp s.sp) (i : Instr) : ∃ t, exec i s = .next t := by
  cases i with
  | call nnn =>
    by_cases h32 : s.sp.toNat = 32
    · exact ⟨_, exec_call_of_full nnn h32⟩
    · exact ⟨_, exec_call_of_legal nnn h h32⟩
  | ret =>
    by_cases h0 : s.sp.toNat = 0
    · exact ⟨_, exec_ret_of_empty h0⟩
    · exact ⟨_, exec_ret_of_legal h h0⟩
  | drw x y n =>
    by_cases ho : SpriteOutOfRange s.I.toNat n.val
    · exact ⟨_, if_pos ho⟩
    · exact ⟨_, if_neg ho⟩
  | _ => exact ⟨_, rfl⟩

theorem step_completes {s : State} (h : LegalSp s.sp) : ∃ t, step s = .next t := by
  rcases status_running_or_halted s with hr | ⟨k, hk⟩
  · by_cases hp : s.pc.toNat ≤ 0xFFE
    · rcases hd : decode (s.mem.read s.pc.toNat ++ s.mem.read (s.pc.toNat + 1)) with e | i
      · exact ⟨_, step_of_invalid hr hp hd⟩
      · rw [step_of_decoded hr hp hd]
        exact exec_completes (s := advancePc s) h i
    · exact ⟨_, step_of_fetch_error hr (by omega)⟩
  · exact ⟨_, step_of_halted hk⟩

/-- Settles O23: the legal `sp` of the invariant is all a Step needs. -/
theorem legalStepAlwaysCompletes : Obligations.LegalStepAlwaysCompletes := fun _ h => step_completes h.sp

/-! ### Creation and Load -/

/-- Settles O21: each part of the invariant at the values of R38. -/
theorem resetStateIsLegal : Obligations.ResetStateIsLegal where
  sp := by decide
  I := by decide
  pc := by decide
  stack j := by rw [reset_stack, Fin.getElem_fin, Vector.getElem_replicate]; decide
  mem := Memory.wf_nil

/-- A Load answers `Ok` only for an image that fits, and leaves that image in the initialised state. -/
theorem eq_loadedImage_of_loadPort {image : List Byte} {s t : State} (h : loadPort image s = .next ⟨.ok, t⟩) :
    image.length ≤ 3584 ∧ t = loadedImage image := by
  unfold loadPort at h
  split_ifs at h with _ fits <;> cases h
  exact ⟨fits, rfl⟩

/-- Settles O22: a Load changes only the memory of the legal state after creation, inside the address space. -/
theorem loadLeavesALegalState : Obligations.LoadLeavesALegalState := by
  intro image s t h
  obtain ⟨fits, rfl⟩ := eq_loadedImage_of_loadPort h
  have reset := resetStateIsLegal
  exact ⟨reset.sp, reset.I, reset.pc, reset.stack, Memory.wf_writeBytes image reset.mem 0x200 (by omega)⟩

end Sys2Proof.Machine
end

section
/-! PROOFS. Which fields an instruction writes and which ones it reads (the table at the head of spec/10_state.md), the
stack discipline (R28), and memory and the font under every request (R46, R49). -/

namespace Sys2Proof.Machine

/-! ### The frame of an instruction, field by field -/

section Frame
variable {s t : State} {i : Instr}

theorem effect_I (h : Effect s i t) (hi : ∀ nnn, i ≠ .ldI nnn) : t.I = s.I := by
  cases h with
  | loadIndex nnn => exact absurd rfl (hi nnn)
  | skip _ taken => cases taken <;> rfl
  | _ => rfl

theorem effect_sp (h : Effect s i t) (hcall : ∀ nnn, i ≠ .call nnn) (hret : i ≠ .ret) : t.sp = s.sp := by
  match h with
  | .call nnn .. => exact absurd rfl (hcall nnn)
  | .return .. => exact absurd rfl hret
  | .skip _ taken _ => cases taken <;> rfl
  | .jump _ | .indexedJump _ | .callFull .. | .returnEmpty _ | .write .. | .writeFlag .. | .loadIndex _ | .clear
  | .drawOutOfRange .. | .draw .. | .unimplemented .. => rfl

theorem effect_stack (h : Effect s i t) (hcall : ∀ nnn, i ≠ .call nnn) : t.stack = s.stack := by
  cases h with
  | call nnn => exact absurd rfl (hcall nnn)
  | skip _ taken => cases taken <;> rfl
  | _ => rfl

theorem effect_fb (h : Effect s i t) (hcls : i ≠ .cls) (hdrw : ∀ x y n, i ≠ .drw x y n) : t.fb = s.fb := by
  cases h with
  | clear => exact absurd rfl hcls
  | draw x y n => exact absurd rfl (hdrw x y n)
  | skip _ taken => cases taken <;> rfl
  | _ => rfl

theorem effect_legalSp (hs : LegalSp s.sp) (h : Effect s i t) : LegalSp t.sp := by
  match h with
  | .call _ _ h32 => exact legalSp_add_two hs h32
  | .return _ h0 => exact legalSp_sub_two hs h0
  | .skip _ taken _ => cases taken <;> exact hs
  | .jump _ | .indexedJump _ | .callFull .. | .returnEmpty _ | .write .. | .writeFlag .. | .loadIndex _ | .clear
  | .drawOutOfRange .. | .draw .. | .unimplemented .. => exact hs

end Frame

/-- Settles O28: the frame of each field, and the effects that change the status. -/
theorem onlyTheNamedInstructionsWriteEachField : Obligations.OnlyTheNamedInstructionsWriteEachField := by
  intro i s t hexec
  have h := effect_of_exec hexec
  refine ⟨fun j => effect_getV_of_unwritten h, effect_I h, effect_sp h, effect_stack h,
    fun a => by rw [effect_mem h], effect_fb h, fun changed => ?_⟩
  obtain same | ⟨k, rfl⟩ := effect_status h
  · exact absurd same changed
  · rfl

/-- Settles O29: the rule for unread registers. -/
theorem unreadRegistersHaveNoInfluence : Obligations.UnreadRegistersHaveNoInfluence := fun _ s _ v h =>
  forgetV_exec_of_unread h s v

/-! ### The index register (R22) -/

/-- Two branches on one condition that agree under a map of their next states. -/
theorem mapNext_ite_congr {f : State → State} {c : Prop} [Decidable c] {o o' p p' : Host.Outcome State Fault Refusal}
    (ho : mapNext f o = mapNext f o') (hp : mapNext f p = mapNext f p') :
    mapNext f (if c then o else p) = mapNext f (if c then o' else p') := by
  by_cases h : c
  · rw [if_pos h, if_pos h, ho]
  · rw [if_neg h, if_neg h, hp]

/-- An outcome without its value of `I`. -/
def forgetI (o : Host.Outcome State Fault Refusal) : Host.Outcome State Fault Refusal :=
  mapNext (fun t => setI t 0) o

section ForgetI
variable (s : State) (v : Word)

theorem forgetI_skipIf (c : Bool) : forgetI (skipIf c (setI s v)) = forgetI (skipIf c s) := by
  cases c <;> rfl

theorem forgetI_execCall (nnn : Addr) : forgetI (execCall nnn (setI s v)) = forgetI (execCall nnn s) :=
  mapNext_ite_congr rfl (mapNext_ite_congr rfl rfl)

theorem forgetI_execRet : forgetI (execRet (setI s v)) = forgetI (execRet s) :=
  mapNext_ite_congr rfl (mapNext_ite_congr rfl rfl)

/-- No instruction but the draw reads `I`. -/
theorem forgetI_exec {i : Instr} (hi : ∀ x y n, i ≠ .drw x y n) :
    forgetI (exec i (setI s v)) = forgetI (exec i s) := by
  cases i with
  | drw x y n => exact absurd rfl (hi x y n)
  | call nnn => exact forgetI_execCall s v nnn
  | ret => exact forgetI_execRet s v
  | seImm | sneImm | seReg | sneReg => exact forgetI_skipIf s v _
  | _ => rfl

end ForgetI

theorem effect_I_le {s t : State} {i : Instr} (hs : s.I.toNat ≤ 0xFFF) (h : Effect s i t) : t.I.toNat ≤ 0xFFF := by
  cases h with
  | loadIndex nnn => exact toNat_addrOperand_le nnn
  | skip _ taken => cases taken <;> exact hs
  | _ => exact hs

theorem step_I_le {s t : State} (hs : s.I.toNat ≤ 0xFFF) (h : step s = .next t) : t.I.toNat ≤ 0xFFF := by
  rcases step_cases h with ⟨-, -, rfl⟩ | ⟨-, -, rfl⟩ | ⟨-, -, -, rfl⟩ | ⟨i, -, -, hexec⟩
  · exact hs
  · exact hs
  · exact hs
  · exact effect_I_le (s := advancePc s) hs (effect_of_exec hexec)

/-- Settles O26: the frame of `I`, its non-interference, and the bound of ANNN's operand. -/
theorem indexRegisterWrittenByOneReadByOne : Obligations.IndexRegisterWrittenByOneReadByOne := by
  refine ⟨fun i s t h => ?_, fun i s v hi => forgetI_exec s v hi, fun s t => step_I_le, rfl⟩
  split
  next nnn => cases h; rfl
  next hi => exact effect_I (effect_of_exec h) hi

/-! ### The stack (R26 to R28) -/

/-- `stack <- entries`. -/
def setStack (s : State) (entries : Vector Word 16) : State := { s with stack := entries }

theorem skipIf_setStack (s : State) (entries : Vector Word 16) (c : Bool) :
    skipIf c (setStack s entries) = mapNext (fun t => setStack t entries) (skipIf c s) := by
  cases c <;> rfl

theorem execDrw_setStack (s : State) (entries : Vector Word 16) (x y : Reg) (n : Fin 16) :
    execDrw x y n (setStack s entries) = mapNext (fun t => setStack t entries) (execDrw x y n s) := by
  by_cases ho : SpriteOutOfRange s.I.toNat n.val
  · rw [execDrw, execDrw, if_pos ho]
    exact if_pos ho
  · rw [execDrw, execDrw, if_neg ho]
    exact if_neg ho

/-- No instruction but CALL and RET reads or writes the stack. -/
theorem exec_setStack (s : State) (entries : Vector Word 16) {i : Instr} (hcall : ∀ nnn, i ≠ .call nnn)
    (hret : i ≠ .ret) : exec i (setStack s entries) = mapNext (fun t => setStack t entries) (exec i s) := by
  cases i with
  | call nnn => exact absurd rfl (hcall nnn)
  | ret => exact absurd rfl hret
  | drw x y n => exact execDrw_setStack s entries x y n
  | seImm | sneImm | seReg | sneReg => exact skipIf_setStack s entries _
  | _ => rfl

theorem getElem_set_ne_fin {α : Type} {n : Nat} (xs : Vector α n) {j m : Fin n} (h : m ≠ j) (x : α) :
    (xs.set j x)[m] = xs[m] :=
  Vector.getElem_set_ne _ _ fun e => h (Fin.ext e.symm)

/-- A legal `sp` above 0 has a top entry. -/
theorem exists_top_of_legal {sp : Word} (h : LegalSp sp) (h0 : sp.toNat ≠ 0) :
    ∃ j : Fin 16, sp.toNat = 2 * (j.val + 1) := by
  obtain ⟨h1, h2⟩ := h
  simp only [Config.spFull, Config.spStep] at h1 h2
  exact ⟨⟨sp.toNat / 2 - 1, by omega⟩, by simp only; omega⟩

/-- The outcomes of `i` in `s` and in `s` with the stack `entries` are next states that differ, at most, in stack entry
`j`. -/
def AgreeButEntry (i : Instr) (s : State) (entries : Vector Word 16) (j : Fin 16) : Prop :=
  ∃ t u, exec i s = .next t ∧ exec i (setStack s entries) = .next u ∧
    u = { t with stack := u.stack } ∧ ∀ m : Fin 16, m ≠ j → u.stack[m] = t.stack[m]

section UnusedEntry
variable {s : State} {j : Fin 16} (v : Word) (legal : LegalSp s.sp)
include legal

/-- A call writes its entry whatever another one holds. -/
theorem call_agrees (hj : s.sp.toNat ≤ 2 * j.val) (nnn : Addr) :
    AgreeButEntry (.call nnn) s (s.stack.set j v) j := by
  obtain ⟨k, hk⟩ := exists_index_of_legal legal (by omega)
  refine ⟨_, _, exec_call_at nnn hk, exec_call_at (s := setStack s (s.stack.set j v)) nnn hk, rfl, fun m hm => ?_⟩
  by_cases hmk : m = k
  · subst hmk
    simp [setStack]
  · simp only [setStack, getElem_set_ne_fin _ hmk, getElem_set_ne_fin _ hm]

/-- A return reads the top entry, which lies below `j`. -/
theorem ret_agrees (hj : s.sp.toNat ≤ 2 * j.val) : AgreeButEntry .ret s (s.stack.set j v) j := by
  by_cases h0 : s.sp.toNat = 0
  · exact ⟨_, _, exec_ret_of_empty h0, exec_ret_of_empty h0, rfl, fun m hm => getElem_set_ne_fin _ hm v⟩
  · obtain ⟨k, hk⟩ := exists_top_of_legal legal h0
    have below : k ≠ j := fun e => by subst e; omega
    refine ⟨_, _, exec_ret_at hk, exec_ret_at (s := setStack s (s.stack.set j v)) hk, ?_,
      fun m hm => getElem_set_ne_fin _ hm v⟩
    simp [setStack, getElem_set_ne_fin _ below]

/-- Any other instruction carries the entries over. -/
theorem other_agrees {i : Instr} (hcall : ∀ nnn, i ≠ .call nnn) (hret : i ≠ .ret) :
    AgreeButEntry i s (s.stack.set j v) j := by
  obtain ⟨t, ht⟩ := exec_completes legal i
  refine ⟨t, setStack t (s.stack.set j v), ht, ?_, rfl, fun m hm => ?_⟩
  · rw [exec_setStack s _ hcall hret, ht]
    rfl
  · rw [effect_stack (effect_of_exec ht) hcall]
    exact getElem_set_ne_fin _ hm v

end UnusedEntry

/-- Settles O25: the raises before any write, the frame of the stack, and the entries that no instruction reads. -/
theorem stackDisciplineHolds : Obligations.StackDisciplineHolds := by
  refine ⟨fun s nnn h => exec_call_of_full nnn (congrArg BitVec.toNat h),
    fun s h => exec_ret_of_empty (congrArg BitVec.toNat h),
    fun i s t legal h => effect_legalSp legal (effect_of_exec h),
    fun s t h => effect_stack (effect_of_exec h) nofun, fun i s j v legal hj => ?_⟩
  change AgreeButEntry i s (s.stack.set j v) j
  by_cases hcall : ∃ nnn, i = .call nnn
  · obtain ⟨nnn, rfl⟩ := hcall
    exact call_agrees v legal hj nnn
  · by_cases hret : i = .ret
    · subst hret
      exact ret_agrees v legal hj
    · exact other_agrees v legal (fun nnn e => hcall ⟨nnn, e⟩) hret

/-! ### Memory and the font (R46, R49) -/

theorem step_mem {s t : State} (h : step s = .next t) : t.mem = s.mem := by
  rcases step_cases h with ⟨-, -, rfl⟩ | ⟨-, -, rfl⟩ | ⟨-, -, -, rfl⟩ | ⟨i, -, -, hexec⟩
  · rfl
  · rfl
  · rfl
  · exact effect_mem (s := advancePc s) (effect_of_exec hexec)

/-- Settles O30: a Step leaves the memory as it was. -/
theorem noStepWritesMemory : Obligations.NoStepWritesMemory := fun s t h a => by rw [step_mem h]

end Sys2Proof.Machine
end

section
/-! PROOFS. The Step's errors (spec/60_exceptions.md) and the host's ports (spec/40_pipeline.md, section 1): what each
error leaves and which cause each kind has (R130, R140), and what a request does to a halted driver (R72, R143). -/

namespace Sys2Proof.Machine

/-! ### The Step and the fetch -/

/-- Settles O11: the Step's decoded case. -/
theorem stepRunsTheDecodedInstruction : Obligations.StepRunsTheDecodedInstruction := fun _ _ => step_of_decoded

/-- Settles O12: the fetch on both sides of its bound, and the Step that its error ends. -/
theorem fetchIsBigEndianAndNeverWraps : Obligations.FetchIsBigEndianAndNeverWraps := fun _ =>
  ⟨fetch_of_le, fetch_of_gt, fun h hr => step_of_fetch_error hr h⟩

/-! ### What an error leaves (R140) -/

/-- A Step that leaves the driver halted changes the status and, where the driver ran and the fetch passed, `pc`. -/
theorem eq_of_step_halts {s t : State} {k : StepError} (h : step s = .next t) (ht : t.status = .halted k) :
    t = { s with
      pc := if s.status = .running ∧ s.pc.toNat ≤ 0xFFE then s.pc + 2 else s.pc
      status := .halted k } := by
  rcases status_running_or_halted s with hr | ⟨k', hk⟩
  · by_cases hp : s.pc.toNat ≤ 0xFFE
    · rw [if_pos ⟨hr, hp⟩]
      exact eq_raise_advancePc_of_step_halts hr hp h ht
    · rw [if_neg fun hc => hp hc.2]
      cases (step_of_fetch_error hr (by omega)).symm.trans h
      cases ht
      rfl
  · cases (step_of_halted hk).symm.trans h
    rw [if_neg (by simp [hk]), ← ht]

/-- Settles O18: the answer `Err(k)` is the status `Halted(k)`. -/
theorem errorsArePrecise : Obligations.ErrorsArePrecise := by
  intro s t k h
  obtain ⟨hstep, hresponse⟩ := reply_of_stepPort h
  exact eq_of_step_halts hstep ((responseOf_eq_err_iff t k).mp hresponse.symm)

/-! ### The cause of each error (R130) -/

/-- The causes of the errors a Step of a running driver raises (R130). -/
inductive Raises (s : State) : StepError → Prop where
  | fetch (h : 0xFFE < s.pc.toNat) : Raises s (.addressOutOfRange s.pc)
  | invalid (h : FetchedInvalid s) : Raises s .invalidInstruction
  | unimplemented (i : Instr) (hi : Fetched s i) (h : i.unimplemented = true) : Raises s .unimplemented
  | callFull (nnn : Addr) (hi : Fetched s (.call nnn)) (h : s.sp = 32) : Raises s .stackOverflow
  | returnEmpty (hi : Fetched s .ret) (h : s.sp = 0) : Raises s .stackUnderflow
  | draw (x y : Reg) (n : Fin 16) (hi : Fetched s (.drw x y n)) (h : SpriteOutOfRange s.I.toNat n.val) :
      Raises s (.addressOutOfRange s.I)

theorem decode_error_eq {w : Word} {e : DecodeError} (h : decode w = .error e) : e = .invalidInstruction := by
  cases e with
  | truncated => exact absurd h (decode_ne_truncated w)
  | invalidInstruction => rfl

theorem step_of_fetched {s : State} {i : Instr} (hr : s.status = .running) (hi : Fetched s i) :
    step s = exec i (advancePc s) := step_of_decoded hr hi.1 hi.2

theorem exec_drw_of_outOfRange {s : State} (x y : Reg) {n : Fin 16} (h : SpriteOutOfRange s.I.toNat n.val) :
    exec (.drw x y n) s = .next (raise (.addressOutOfRange s.I) s) := if_pos h

/-- Each cause makes the Step raise its error. -/
theorem step_of_raises {s : State} {k : StepError} (hr : s.status = .running) (h : Raises s k) :
    ∃ t, step s = .next t ∧ t.status = .halted k := by
  cases h with
  | fetch hp => exact ⟨_, step_of_fetch_error hr hp, rfl⟩
  | invalid hd => exact ⟨_, step_of_invalid hr hd.1 hd.2, rfl⟩
  | unimplemented i hi hu => exact ⟨_, step_of_unimplemented hr hi.1 hi.2 hu, rfl⟩
  | callFull nnn hi h32 =>
    exact ⟨_, (step_of_fetched hr hi).trans (exec_call_of_full nnn (congrArg BitVec.toNat h32)), rfl⟩
  | returnEmpty hi h0 =>
    exact ⟨_, (step_of_fetched hr hi).trans (exec_ret_of_empty (congrArg BitVec.toNat h0)), rfl⟩
  | draw x y n hi ho => exact ⟨_, (step_of_fetched hr hi).trans (exec_drw_of_outOfRange x y ho), rfl⟩

/-- An instruction that halts a running driver does so by the cause of its error. -/
theorem raises_of_effect {s t : State} {i : Instr} {k : StepError} (hr : s.status = .running) (hi : Fetched s i)
    (h : Effect (advancePc s) i t) (ht : t.status = .halted k) : Raises s k := by
  have run : (advancePc s).status ≠ .halted k := fun e => by cases hr.symm.trans e
  cases h with
  | callFull nnn h32 => cases ht; exact .callFull nnn hi (BitVec.eq_of_toNat_eq h32)
  | returnEmpty h0 => cases ht; exact .returnEmpty hi (BitVec.eq_of_toNat_eq h0)
  | drawOutOfRange x y n ho => cases ht; exact .draw x y n hi ho
  | unimplemented _ hu => cases ht; exact .unimplemented _ hi hu
  | skip _ taken => cases taken <;> exact absurd ht run
  | _ => exact absurd ht run

/-- The status a Step leaves names its error exactly on that error's cause. -/
theorem status_halted_iff_raises {s t : State} (hr : s.status = .running) (h : step s = .next t) (k : StepError) :
    t.status = .halted k ↔ Raises s k := by
  refine ⟨fun ht => ?_, fun hk => ?_⟩
  · rcases step_cases h with ⟨k', hk', -⟩ | ⟨-, hp, rfl⟩ | ⟨-, hp, ⟨e, he⟩, rfl⟩ | ⟨i, -, hi, hexec⟩
    · cases hr.symm.trans hk'
    · cases ht
      exact .fetch hp
    · cases ht
      exact .invalid ⟨hp, decode_error_eq he ▸ he⟩
    · exact raises_of_effect hr hi (effect_of_exec hexec) ht
  · obtain ⟨u, hu, hstatus⟩ := step_of_raises hr hk
    cases hu.symm.trans h
    exact hstatus

/-! The causes of each kind, in the words of the statement. -/

section Causes
variable (s : State)

theorem raises_invalidInstruction_iff : Raises s .invalidInstruction ↔ FetchedInvalid s :=
  ⟨fun | .invalid h => h, .invalid⟩

theorem raises_unimplemented_iff : Raises s .unimplemented ↔ ∃ i, Fetched s i ∧ i.unimplemented = true :=
  ⟨fun | .unimplemented i hi h => ⟨i, hi, h⟩, fun ⟨i, hi, h⟩ => .unimplemented i hi h⟩

theorem raises_stackOverflow_iff : Raises s .stackOverflow ↔ (∃ nnn, Fetched s (.call nnn)) ∧ s.sp = 32 :=
  ⟨fun | .callFull nnn hi h => ⟨⟨nnn, hi⟩, h⟩, fun ⟨⟨nnn, hi⟩, h⟩ => .callFull nnn hi h⟩

theorem raises_stackUnderflow_iff : Raises s .stackUnderflow ↔ Fetched s .ret ∧ s.sp = 0 :=
  ⟨fun | .returnEmpty hi h => ⟨hi, h⟩, fun ⟨hi, h⟩ => .returnEmpty hi h⟩

theorem raises_addressOutOfRange_iff (a : Word) : Raises s (.addressOutOfRange a) ↔
    (0xFFE < s.pc.toNat ∧ a = s.pc) ∨
    ((∃ x y n, Fetched s (.drw x y n) ∧ 1 ≤ n.val ∧ 0xFFF < s.I.toNat + n.val - 1) ∧ a = s.I) := by
  constructor
  · intro h
    cases h with
    | fetch h => exact .inl ⟨h, rfl⟩
    | draw x y n hi h => exact .inr ⟨⟨x, y, n, hi, h⟩, rfl⟩
  · rintro (⟨h, rfl⟩ | ⟨⟨x, y, n, hi, h⟩, rfl⟩)
    · exact .fetch h
    · exact .draw x y n hi h

end Causes

/-! ### The Load port (R148 to R150) -/

theorem loadPort_of_empty {image : List Byte} (h : image.length = 0) (s : State) :
    loadPort image s = .next ⟨.err .invalidProgram, s⟩ := if_pos h

theorem loadPort_of_overlong {image : List Byte} (h : 3584 < image.length) (s : State) :
    loadPort image s = .refused .imageTooLong := by
  have nonempty : image.length ≠ 0 := by omega
  exact (if_neg nonempty).trans (if_neg (Nat.not_le.mpr h))

/-- Everything a Load that answers can be. -/
theorem loadPort_cases {image : List Byte} {s : State} {p : Reply} (h : loadPort image s = .next p) :
    (image.length = 0 ∧ p = ⟨.err .invalidProgram, s⟩) ∨
    (1 ≤ image.length ∧ image.length ≤ 3584 ∧ p = ⟨.ok, loadedImage image⟩) := by
  by_cases empty : image.length = 0
  · cases (loadPort_of_empty empty s).symm.trans h
    exact .inl ⟨empty, rfl⟩
  · by_cases fits : image.length ≤ 3584
    · cases (loadPort_of_fits (by omega) fits s).symm.trans h
      exact .inr ⟨by omega, fits, rfl⟩
    · cases (loadPort_of_overlong (by omega) s).symm.trans h

theorem loadPort_invalidProgram_iff (image : List Byte) (s t : State) :
    loadPort image s = .next ⟨.err .invalidProgram, t⟩ ↔ image.length = 0 ∧ t = s := by
  constructor
  · intro h
    rcases loadPort_cases h with ⟨empty, hp⟩ | ⟨-, -, hp⟩ <;> cases hp
    exact ⟨empty, rfl⟩
  · rintro ⟨empty, rfl⟩
    exact loadPort_of_empty empty _

/-- Settles O54: the Load of no byte. -/
theorem emptyLoadChangesNothing : Obligations.EmptyLoadChangesNothing := loadPort_of_empty rfl

/-- Settles O56: the Load past the last address. -/
theorem overlongLoadIsRefused : Obligations.OverlongLoadIsRefused := fun _ s h => loadPort_of_overlong h s

/-- Settles O19: the cause of each kind a Step raises, the state such a Step leaves, and `InvalidProgram` as the answer
of the empty Load alone. -/
theorem errorKindsHaveTheseCauses : Obligations.ErrorKindsHaveTheseCauses := by
  refine ⟨fun s hr legal => ?_, fun s image t => loadPort_invalidProgram_iff image s t, fun s p h e => ?_⟩
  · obtain ⟨t, ht⟩ := step_completes legal
    have causes := status_halted_iff_raises hr ht
    refine ⟨t, ht, (causes _).trans (raises_invalidInstruction_iff s), (causes _).trans (raises_unimplemented_iff s),
      (causes _).trans (raises_stackOverflow_iff s), (causes _).trans (raises_stackUnderflow_iff s),
      fun a => (causes _).trans (raises_addressOutOfRange_iff s a), fun halted => ?_⟩
    obtain ⟨k, hk⟩ := (status_running_or_halted t).resolve_left halted
    rw [eq_of_step_halts ht hk]
    simp [hr]
  · obtain ⟨-, hp⟩ := reply_of_stepPort h
    rcases responseOf_ok_or_err p.state with hok | ⟨k, hk⟩
    · cases (hp.symm.trans e).symm.trans hok
    · cases (hp.symm.trans e).symm.trans hk

/-! ### The Resume port (R143) -/

theorem resumeDriver_mem (s : State) : (resumeDriver s).mem = s.mem := by
  by_cases h : s.status = .halted .unimplemented
  · rw [resumeDriver_of_unimplemented h, setStatus_mem]
  · rw [resumeDriver_of_other h]

theorem resumePort_of_unimplemented {s : State} (h : s.status = .halted .unimplemented) :
    resumePort s = .next ⟨.ok, setStatus s .running⟩ := by
  rw [resumePort, resumeDriver_of_unimplemented h, responseOf_of_running (setStatus_status s _)]

theorem resumePort_of_running {s : State} (h : s.status = .running) : resumePort s = .next ⟨.ok, s⟩ := by
  rw [resumePort, resumeDriver_of_other (by simp [h]), responseOf_of_running h]

theorem resumePort_of_halted {s : State} {k : StepError} (hk : k ≠ .unimplemented) (h : s.status = .halted k) :
    resumePort s = .next ⟨.err (.ofStep k), s⟩ := by
  rw [resumePort, resumeDriver_of_other (by simpa [h] using hk), responseOf_of_halted h]

/-! ### Requests to a halted driver (R72, R143) -/

/-- A request leaves a halted driver's state as it was, but for a Load that fits and a Resume after `Unimplemented`. -/
theorem serve_of_halted {s : State} {k : StepError} {r : Request} {p : Reply} (hk : s.status = .halted k)
    (h : serve r s = .next p) :
    p.state = s ∨ (∃ image, r = .load image ∧ p.response = .ok) ∨ (r = .resume ∧ k = .unimplemented) := by
  cases r with
  | step =>
    obtain ⟨hstep, -⟩ := reply_of_stepPort h
    rw [step_of_halted hk] at hstep
    cases hstep
    exact .inl rfl
  | load image =>
    rcases loadPort_cases h with ⟨-, rfl⟩ | ⟨-, -, rfl⟩
    · exact .inl rfl
    · exact .inr (.inl ⟨image, rfl, rfl⟩)
  | framebuffer =>
    cases h
    exact .inl rfl
  | resume =>
    by_cases hu : k = .unimplemented
    · exact .inr (.inr ⟨rfl, hu⟩)
    · cases (resumePort_of_halted hu hk).symm.trans h
      exact .inl rfl

/-- Settles O13: what a request does to a halted driver, and the two that restart it. -/
theorem haltedDriverStaysHalted : Obligations.HaltedDriverStaysHalted := by
  intro s k hk
  refine ⟨?_, fun r p h running => ?_, fun image pos fits => ⟨_, loadPort_of_fits pos fits s, rfl⟩, fun hu => ?_⟩
  · rw [stepPort_of_step (step_of_halted hk), responseOf_of_halted hk]
  · rcases serve_of_halted hk h with same | ⟨image, hload, -⟩ | hresume
    · rw [same, hk] at running
      cases running
    · exact .inl ⟨image, hload⟩
    · exact .inr hresume
  · subst hu
    exact resumePort_of_unimplemented hk

/-- Settles O57: the three cases of Resume, and what a request does to a halted driver. -/
theorem resumeOnlyFromUnimplemented : Obligations.ResumeOnlyFromUnimplemented := by
  intro s
  refine ⟨resumePort_of_running, resumePort_of_unimplemented, fun k hu hk =>
    ⟨resumePort_of_halted hu hk, step_of_halted hk, fun r p h left => ?_⟩⟩
  rcases serve_of_halted hk h with same | hload | ⟨-, he⟩
  · exact absurd (same ▸ hk) left
  · exact hload
  · exact absurd he hu

/-! ### The font under every request (R49) -/

theorem fontIntact_of_mem_eq {s t : State} (h : FontIntact s) (hm : t.mem = s.mem) : FontIntact t := fun a ha => by
  rw [hm, h a ha]

theorem fontIntact_reset : FontIntact State.reset := fun _ _ => rfl

/-- A Load writes from 0x200 on. -/
theorem fontIntact_loadedImage (image : List Byte) : FontIntact (loadedImage image) := fun a ha => by
  rw [read_loadedImage_outside image (.inl (by omega)), fontIntact_reset a ha]

/-- Settles O31: a Step and Resume leave the memory, a Framebuffer read the state, and a Load starts from the state
after creation. -/
theorem fontStaysIntact : Obligations.FontStaysIntact := by
  refine ⟨fontIntact_reset, fun r s p hs h => ?_⟩
  cases r with
  | step =>
    obtain ⟨hstep, -⟩ := reply_of_stepPort h
    exact fontIntact_of_mem_eq hs (step_mem hstep)
  | load image =>
    rcases loadPort_cases h with ⟨-, rfl⟩ | ⟨-, -, rfl⟩
    · exact hs
    · exact fontIntact_loadedImage image
  | framebuffer =>
    cases h
    exact hs
  | resume =>
    cases h
    exact fontIntact_of_mem_eq hs (resumeDriver_mem s)

/-! ### Runs (R84) -/

theorem core_step_eq : core.step = step := rfl

theorem run_succ_of_next {s t : State} (h : step s = .next t) (n : Nat) : core.run (n + 1) s = core.run n t := by
  simp only [Host.Core.run, core_step_eq, h]

theorem endState_succ_of_next {s t : State} (h : step s = .next t) (n : Nat) :
    endState (n + 1) s = if t.status = .running then endState n t else .next t := by
  simp only [endState, h]

/-- Further Steps of a halted driver change nothing (R72). -/
theorem run_of_halted {s : State} {k : StepError} (h : s.status = .halted k) (n : Nat) :
    core.run n s = .next s := by
  induction n with
  | zero => rfl
  | succ n ih => rw [run_succ_of_next (step_of_halted h), ih]

/-- Settles O59: both runs take the same first Step, and after one that halts the machine's run stands still. -/
theorem endOfRunIsTheStateAfterItsSteps : Obligations.EndOfRunIsTheStateAfterItsSteps := by
  intro k
  induction k with
  | zero => exact fun _ => rfl
  | succ k ih =>
    intro s
    cases hs : step s with
    | next t =>
      rw [endState_succ_of_next hs, run_succ_of_next hs]
      rcases status_running_or_halted t with hr | ⟨e, he⟩
      · rw [if_pos hr, ih t]
      · exact (if_neg (by simp [he])).trans (run_of_halted he k).symm
    | fault | refused => simp only [endState, Host.Core.run, core_step_eq, hs] <;> rfl

end Sys2Proof.Machine
end

section
/-! PROOFS. The rest of the register ALU (spec/43_register_alu.md): the bitwise instructions, SUBN (R103) and the shifts
(R102, R104), whose flag is the bit shifted out, and the order of the two writes (R93). -/

namespace Sys2Proof.Machine

/-! ### The bits the shifts lose, in exact arithmetic -/

theorem shiftedOutRight_eq_decide (a : Byte) : shiftedOutRight a = decide (a.toNat % 2 = 1) := by
  rw [shiftedOutRight, BitVec.getLsbD, Nat.testBit_zero]

theorem shiftedOutLeft_eq_decide (a : Byte) : shiftedOutLeft a = decide (128 ≤ a.toNat) := by
  have msb : shiftedOutLeft a = a.msb := rfl
  rw [msb, BitVec.msb_eq_decide]

theorem flagByte_shiftedOutRight (a : Byte) : flagByte (shiftedOutRight a) = a &&& 1 := by
  revert a
  decide

theorem flagByte_shiftedOutLeft (a : Byte) : flagByte (shiftedOutLeft a) = a >>> 7 := by
  revert a
  decide

theorem toNat_ite_odd (a : Byte) : (if a.toNat % 2 = 1 then 1 else 0 : Byte).toNat = a.toNat % 2 := by
  split <;> simp <;> omega

theorem toNat_ite_ge_128 (a : Byte) : (if 128 ≤ a.toNat then 1 else 0 : Byte).toNat = a.toNat / 128 := by
  split <;> simp <;> omega

theorem toNat_shiftRight_one (a : Byte) : (a >>> 1).toNat = a.toNat / 2 := by
  rw [BitVec.toNat_ushiftRight, Nat.shiftRight_one]

theorem toNat_shiftLeft_one (a : Byte) : (a <<< 1).toNat = 2 * a.toNat % 256 := by
  rw [BitVec.toNat_shiftLeft, Nat.shiftLeft_eq, Nat.mul_comm]

/-! ### What the handlers do -/

theorem exec_or (x y : Reg) (s : State) : exec (.or x y) s = .next (setV s x (getV s x ||| getV s y)) := rfl

theorem exec_and (x y : Reg) (s : State) : exec (.and x y) s = .next (setV s x (getV s x &&& getV s y)) := rfl

theorem exec_xor (x y : Reg) (s : State) : exec (.xor x y) s = .next (setV s x (getV s x ^^^ getV s y)) := rfl

theorem exec_subn (x y : Reg) (s : State) :
    exec (.subn x y) s = writeResultFlag x (getV s y - getV s x)
      (decide ((getV s y).toNat > (getV s x).toNat)) s := rfl

theorem exec_shr (x : Reg) (s : State) :
    exec (.shr x) s = writeResultFlag x (getV s x >>> 1) (decide ((getV s x).toNat % 2 = 1)) s := by
  rw [← shiftedOutRight_eq_decide]
  rfl

theorem exec_shl (x : Reg) (s : State) :
    exec (.shl x) s = writeResultFlag x (getV s x <<< 1) (decide (128 ≤ (getV s x).toNat)) s := by
  rw [← shiftedOutLeft_eq_decide]
  rfl

/-- The shared end of a flag-writing instruction is two writes, the flag last (R93). -/
theorem writeResultFlag_eq (x : Reg) (r : Byte) (f : Bool) (s : State) :
    writeResultFlag x r f s = .next { s with V := (s.V.set x r).set 15 (flagByte f) } := rfl

/-! ### The statements -/

/-- Settles O39: the lookups at low nibbles 1, 2 and 3, and the handlers, each the shared write of one register. -/
theorem logicWritesOneRegisterAndNoFlag : Obligations.LogicWritesOneRegisterAndNoFlag :=
  ⟨selects_of_class8 0x1#4 selectClass8_eq_or, selects_of_class8 0x2#4 selectClass8_eq_and,
    selects_of_class8 0x3#4 selectClass8_eq_xor, fun x y s => ⟨exec_or x y s, exec_and x y s, exec_xor x y s⟩⟩

/-- Settles O42: the lookup at low nibble 7, and the flag-writing end with the operands of SUB exchanged. -/
theorem reverseSubtractMirrorsSubtract : Obligations.ReverseSubtractMirrorsSubtract := by
  refine ⟨selects_of_class8 0x7#4 selectClass8_eq_subn, fun x y s => ?_⟩
  rw [exec_subn]
  obtain ⟨t, ht, hV, hflag, hresult, hframe⟩ := writeResultFlag_leaves x (getV s y - getV s x)
    ((getV s y).toNat > (getV s x).toNat) s
  exact ⟨t, ht, hV, hflag, fun hx => by rw [hresult hx]; exact toNat_sub_eq_emod _ _, hframe⟩

/-- SHR in exact arithmetic (R102). -/
theorem exec_shr_leaves (x : Reg) (s : State) : ∃ t, exec (.shr x) s = .next t ∧ t = { s with V := t.V } ∧
    t.V[15].toNat = s.V[x].toNat % 2 ∧ (x ≠ 15 → t.V[x].toNat = s.V[x].toNat / 2) ∧
    ∀ j : Reg, j ≠ x → j ≠ 15 → t.V[j] = s.V[j] := by
  rw [exec_shr]
  obtain ⟨t, ht, hV, hflag, hresult, hframe⟩ := writeResultFlag_leaves x (getV s x >>> 1)
    ((getV s x).toNat % 2 = 1) s
  exact ⟨t, ht, hV, hflag ▸ toNat_ite_odd _, fun hx => hresult hx ▸ toNat_shiftRight_one _, hframe⟩

/-- SHL in exact arithmetic (R104). -/
theorem exec_shl_leaves (x : Reg) (s : State) : ∃ t, exec (.shl x) s = .next t ∧ t = { s with V := t.V } ∧
    t.V[15].toNat = s.V[x].toNat / 128 ∧ (x ≠ 15 → t.V[x].toNat = 2 * s.V[x].toNat % 256) ∧
    ∀ j : Reg, j ≠ x → j ≠ 15 → t.V[j] = s.V[j] := by
  rw [exec_shl]
  obtain ⟨t, ht, hV, hflag, hresult, hframe⟩ := writeResultFlag_leaves x (getV s x <<< 1)
    (128 ≤ (getV s x).toNat) s
  exact ⟨t, ht, hV, hflag ▸ toNat_ite_ge_128 _, fun hx => hresult hx ▸ toNat_shiftLeft_one _, hframe⟩

/-- Settles O43: the lookups at low nibbles 6 and 0xE, whatever the `y` field, and the shifts in exact arithmetic. -/
theorem shiftsCaptureTheBitShiftedOut : Obligations.ShiftsCaptureTheBitShiftedOut :=
  ⟨selects_of_class8 0x6#4 selectClass8_eq_shr, selects_of_class8 0xE#4 selectClass8_eq_shl, fun x s =>
    ⟨exec_shr_leaves x s, exec_shl_leaves x s⟩⟩

/-- Settles O44: the shared end of the five, with each flag byte read off the old operands. -/
theorem flagIsWrittenLast : Obligations.FlagIsWrittenLast := by
  intro x y s resultThenFlag
  refine ⟨?_, ?_, ?_, ?_, ?_⟩
  · rw [exec_addReg, writeResultFlag_eq, flagByte_decide]
    rfl
  · rw [exec_sub, writeResultFlag_eq, flagByte_decide]
    rfl
  · rw [exec_shr, ← shiftedOutRight_eq_decide, writeResultFlag_eq, flagByte_shiftedOutRight]
    rfl
  · rw [exec_subn, writeResultFlag_eq, flagByte_decide]
    rfl
  · rw [exec_shl, ← shiftedOutLeft_eq_decide, writeResultFlag_eq, flagByte_shiftedOutLeft]
    rfl

end Sys2Proof.Machine
end

section
/-! PROOFS. The draw (spec/44_index_display.md): its three outcomes (R108, R115), the framebuffer pixel by pixel and the
flag as a question about pixels (R109 to R114), and a draw undone by its repetition. -/

namespace Sys2Proof.Machine

/-! ### The outcomes of a draw -/

/-- What a draw inside memory leaves: the row loop's framebuffer, then its flag. -/
def drawn (x y : Reg) (n : Fin 16) (s : State) : Vector Scanline 32 × Bool :=
  blit (originColumn (getV s x)) (getV s y).toNat (spriteBytes s s.I.toNat n.val) s.fb

theorem exec_drw_of_inRange {s : State} (x y : Reg) {n : Fin 16} (h : ¬ SpriteOutOfRange s.I.toNat n.val) :
    exec (.drw x y n) s = .next (setFlag (setFb s (drawn x y n s).1) (drawn x y n s).2) := if_neg h

/-- Settles O47: the bounds check comes first. -/
theorem drawPastMemoryRaises : Obligations.DrawPastMemoryRaises := fun x y _ _ pos past =>
  exec_drw_of_outOfRange x y ⟨pos, past⟩

/-- Settles O48: no row passes the bounds check whatever `I`, and the empty row loop keeps the framebuffer and hits
nothing. -/
theorem drawOfNoRowsClearsFlag : Obligations.DrawOfNoRowsClearsFlag := fun x y s =>
  exec_drw_of_inRange (s := s) x y fun h => absurd h.1 (by decide)

/-! ### A draw pixel by pixel -/

theorem pixel_ext {fb fb' : Vector Scanline 32} (h : ∀ r c, pixel fb r c = pixel fb' r c) : fb = fb' := by
  ext r hr c hc
  exact h ⟨r, hr⟩ ⟨c, hc⟩

theorem length_spriteBytes (s : State) (base n : Nat) : (spriteBytes s base n).length = n := by simp [spriteBytes]

theorem getElem?_spriteBytes (s : State) {base n i : Nat} (h : i < n) :
    (spriteBytes s base n)[i]?.getD 0 = s.mem.read (base + i) := by
  simp [spriteBytes, h]

/-- A placed row shows its byte's bits from the origin column on (R111). -/
theorem getLsbD_spriteBits_eq_any (b vx : Byte) {c : Nat} (hc : c < 64) :
    (spriteBits b (originColumn vx)).getLsbD c =
      (List.range 8).any fun j => (vx.toNat + j) % 64 == c && b.getLsbD (7 - j) := by
  rw [Bool.eq_iff_iff, getLsbD_spriteBits_originColumn_iff b vx hc]
  simp

/-- The sprite pixel, row by row of the sprite (R109, R110). -/
theorem spritePixel_eq_any (m : Memory) (base n : Nat) (vx vy : Byte) (r : Fin 32) (c : Fin 64) :
    spritePixel m base n vx vy r c = (List.range n).any fun i =>
      (vy.toNat + i) % 32 == r.val && (spriteBits (m.read (base + i)) (originColumn vx)).getLsbD c := by
  unfold spritePixel
  congr 1
  funext i
  rw [getLsbD_spriteBits_eq_any _ vx c.isLt]
  cases (vy.toNat + i) % 32 == r.val <;> simp

/-- Two bit vectors overlap when they share a set bit. -/
theorem and_ne_zero_iff {w : Nat} (a b : BitVec w) :
    a &&& b ≠ 0 ↔ ∃ c : Fin w, a.getLsbD c = true ∧ b.getLsbD c = true := by
  constructor
  · intro h
    by_contra hno
    refine h (BitVec.eq_of_getLsbD_eq fun c hc => ?_)
    have := not_exists.mp hno ⟨c, hc⟩
    simpa using this
  · rintro ⟨c, ha, hb⟩ h
    have disjoint : (a &&& b).getLsbD c = false := by rw [h]; exact BitVec.getLsbD_zero
    rw [BitVec.getLsbD_and, ha, hb] at disjoint
    cases disjoint

section Drawn
variable (x y : Reg) (n : Fin 16) (s : State)

theorem pixel_drawn (r : Fin 32) (c : Fin 64) : pixel (drawn x y n s).1 r c =
    (pixel s.fb r c ^^ spritePixel s.mem s.I.toNat n.val (getV s x) (getV s y) r c) := by
  have fits : (spriteBytes s s.I.toNat n.val).length ≤ 32 := by rw [length_spriteBytes]; omega
  rw [pixel, drawn, blit_pixel _ _ _ _ fits, spritePixel_eq_any, length_spriteBytes]
  congr 1
  rw [Bool.eq_iff_iff, List.any_eq_true, List.any_eq_true]
  refine exists_congr fun i => and_congr_right fun hi => ?_
  rw [getElem?_spriteBytes s (List.mem_range.mp hi)]

/-- The flag of a draw: some sprite pixel meets a set pixel of the screen before the draw (R113, R114). -/
theorem drawn_hit_iff : (drawn x y n s).2 = true ↔
    ∃ r c, pixel s.fb r c = true ∧ spritePixel s.mem s.I.toNat n.val (getV s x) (getV s y) r c = true := by
  have fits : (spriteBytes s s.I.toNat n.val).length ≤ 32 := by rw [length_spriteBytes]; omega
  rw [drawn, blit_hit _ _ _ _ fits, length_spriteBytes]
  simp only [and_ne_zero_iff, spritePixel_eq_any, List.any_eq_true, List.mem_range, Bool.and_eq_true, beq_iff_eq]
  constructor
  · rintro ⟨i, hi, c, hold, hbit⟩
    rw [getElem?_spriteBytes s hi] at hbit
    exact ⟨targetRow ((getV s y).toNat + i), c, hold, i, hi, rfl, hbit⟩
  · rintro ⟨r, c, hold, i, hi, hr, hbit⟩
    obtain rfl : targetRow ((getV s y).toNat + i) = r := Fin.ext hr
    rw [← getElem?_spriteBytes s hi] at hbit
    exact ⟨i, hi, c, hold, hbit⟩

end Drawn

/-! ### The statements -/

theorem flagByte_eq_one_iff (f : Bool) : flagByte f = 1 ↔ f = true := by
  cases f <;> decide

/-- Settles O50: the row loop's framebuffer and flag, pixel by pixel, and the frame of the flag's write. -/
theorem drawXorsTheSpritePixelByPixel : Obligations.DrawXorsTheSpritePixelByPixel := by
  refine ⟨selects_of_class 0xD#4 decode_eq_drw, fun x y n s fits => ?_⟩
  have inRange : ¬ SpriteOutOfRange s.I.toNat n.val := fun ⟨pos, past⟩ => absurd (fits pos) (Nat.not_le.mpr past)
  have flag : (setFlag (setFb s (drawn x y n s).1) (drawn x y n s).2).V[15] = flagByte (drawn x y n s).2 :=
    getV_setV_same _ .vf _
  refine ⟨_, exec_drw_of_inRange x y inRange, rfl, pixel_drawn x y n s, fun j hj => getV_setFlag_ne _ hj _, ?_, ?_⟩
  · rw [flag]
    exact flagByte_zero_or_one _
  · rw [flag, flagByte_eq_one_iff, drawn_hit_iff]
    refine exists_congr fun r => exists_congr fun c => and_congr_right fun hold => ?_
    rw [setFlag_fb, setFb_fb, pixel_drawn, hold]
    simp

/-- Settles O51: the second draw XORs the same sprite, since the first changes no register but VF; what it clears is
what the first draw set. -/
theorem drawTwiceRestoresTheScreen : Obligations.DrawTwiceRestoresTheScreen := by
  intro x y n s hx hy fits
  obtain ⟨t, ht, htf, htpix, htV, -, -⟩ := drawXorsTheSpritePixelByPixel.2 x y n s fits
  have hI : t.I = s.I := by rw [htf]
  have hmem : t.mem = s.mem := by rw [htf]
  obtain ⟨u, hu, -, hupix, -, -, huflag⟩ := drawXorsTheSpritePixelByPixel.2 x y n t (hI ▸ fits)
  rw [hI, hmem, htV x hx, htV y hy] at hupix
  have restored : u.fb = s.fb := pixel_ext fun r c => by
    rw [hupix, htpix, Bool.xor_assoc, Bool.xor_self, Bool.xor_false]
  refine ⟨t, u, ht, hu, restored, huflag.trans ?_⟩
  rw [restored]
  simp only [and_comm]

end Sys2Proof.Machine
end
